-- ==== Sys2Proof/Word.lean ====
section
/-! DEFINITION. The widths of the machine's values (00_scope.md R7, R9). -/

namespace Sys2Proof

/-- A memory cell or a general register: 8 bits, unsigned (R9, R11). -/
abbrev Byte := BitVec 8

/-- An instruction word, `pc`, `I` or a stack entry: 16 bits, unsigned (R9, R11). -/
abbrev Word := BitVec 16

/-- A register index or a count: 4 bits (R9, R54). -/
abbrev Nibble := BitVec 4

/-- The address field `nnn`: 12 bits (R54). -/
abbrev Addr12 := BitVec 12

end Sys2Proof
end

