-- ==== Sys2Proof/Syntax.lean ====
section
/-! DEFINITION. The 34 instructions of spec/opcode_table.json (30_encoding.md R61), in the table's order,
each with the operand fields the table gives its row (R54, R55). -/

namespace Sys2Proof

/-- One constructor per row of the opcode table. The fields `x`, `y` are register indices, `n` a sprite
height, `kk` an immediate byte, `nnn` an address (R54, R56). -/
inductive Instr where
  /-- `00E0` CLS (R68). -/
  | cls
  /-- `00EE` RET (R74). -/
  | ret
  /-- `1nnn` JP addr (R75). -/
  | jp (nnn : Addr12)
  /-- `2nnn` CALL addr (R76). -/
  | call (nnn : Addr12)
  /-- `3xkk` SE Vx, byte (R79). -/
  | seImm (x : Nibble) (kk : Byte)
  /-- `4xkk` SNE Vx, byte (R80). -/
  | sneImm (x : Nibble) (kk : Byte)
  /-- `5xy0` SE Vx, Vy (R81). -/
  | seReg (x y : Nibble)
  /-- `6xkk` LD Vx, byte (R88). -/
  | ldImm (x : Nibble) (kk : Byte)
  /-- `7xkk` ADD Vx, byte (R89). -/
  | addImm (x : Nibble) (kk : Byte)
  /-- `8xy0` LD Vx, Vy (R90). -/
  | ldReg (x y : Nibble)
  /-- `8xy1` OR Vx, Vy (R91). -/
  | orReg (x y : Nibble)
  /-- `8xy2` AND Vx, Vy (R92). -/
  | andReg (x y : Nibble)
  /-- `8xy3` XOR Vx, Vy (R93). -/
  | xorReg (x y : Nibble)
  /-- `8xy4` ADD Vx, Vy (R94). -/
  | addReg (x y : Nibble)
  /-- `8xy5` SUB Vx, Vy (R95). -/
  | sub (x y : Nibble)
  /-- `8xy6` SHR Vx: `y` is decoded and not used (R97). -/
  | shr (x y : Nibble)
  /-- `8xy7` SUBN Vx, Vy (R96). -/
  | subn (x y : Nibble)
  /-- `8xyE` SHL Vx: `y` is decoded and not used (R98). -/
  | shl (x y : Nibble)
  /-- `9xy0` SNE Vx, Vy (R82). -/
  | sneReg (x y : Nibble)
  /-- `Annn` LD I, addr (R101). -/
  | ldI (nnn : Addr12)
  /-- `Bnnn` JP V0, addr (R77). -/
  | jpV0 (nnn : Addr12)
  /-- `Cxkk` RND Vx, byte (R99). -/
  | rnd (x : Nibble) (kk : Byte)
  /-- `Dxyn` DRW Vx, Vy, nibble (R72). -/
  | drw (x y n : Nibble)
  /-- `Ex9E` SKP Vx (R84). -/
  | skp (x : Nibble)
  /-- `ExA1` SKNP Vx (R85). -/
  | sknp (x : Nibble)
  /-- `Fx07` LD Vx, DT (R107). -/
  | ldVxDT (x : Nibble)
  /-- `Fx0A` LD Vx, K (R110). -/
  | ldVxK (x : Nibble)
  /-- `Fx15` LD DT, Vx (R108). -/
  | ldDTVx (x : Nibble)
  /-- `Fx18` LD ST, Vx (R109). -/
  | ldSTVx (x : Nibble)
  /-- `Fx1E` ADD I, Vx (R102). -/
  | addI (x : Nibble)
  /-- `Fx29` LD F, Vx (R103). -/
  | ldF (x : Nibble)
  /-- `Fx33` LD B, Vx (R104). -/
  | ldB (x : Nibble)
  /-- `Fx55` LD [I], Vx (R105). -/
  | ldMemVx (x : Nibble)
  /-- `Fx65` LD Vx, [I] (R106). -/
  | ldVxMem (x : Nibble)
deriving DecidableEq, Repr

end Sys2Proof
end

