-- ==== Sys2Proof/WellFormed.lean ====
section
/-! DEFINITION. The checks on what is given to the machine: instructions and ROM images.

An `Instr` needs none: its fields have exactly the widths of 30_encoding.md R54, so no ill-formed
instruction can be written down (00_scope.md R11, 30_encoding.md R66: no word is illegal). A ROM image has
one, its length (70_reset_and_hazards.md R128). -/

namespace Sys2Proof

/-- The largest ROM image in bytes, `0xFFF - 0x200 + 1` (00_scope.md R7). -/
def maxImageLength : Nat := 3584

/-- The check `load` makes on an image: it fits in 0x200..0xFFF (R128). -/
def imageWellFormed (bytes : List Byte) : Bool := bytes.length ≤ maxImageLength

end Sys2Proof
end

