-- ==== Sys2Proof/Decode.lean ====
section
/-! DEFINITION. Fields, decoder, aliased words and encoder (30_encoding.md R54, R55, R60, R62, R64). -/

namespace Sys2Proof

/-! ### Fields of a word (R54) -/

/-- `w[15:12]`, the primary category. -/
def fieldCat (w : Word) : Nibble := w.extractLsb' 12 4
/-- `w[11:8]`, a register index. -/
def fieldX (w : Word) : Nibble := w.extractLsb' 8 4
/-- `w[7:4]`, a register index. -/
def fieldY (w : Word) : Nibble := w.extractLsb' 4 4
/-- `w[3:0]`, the low nibble: a sprite height or a secondary key. -/
def fieldN (w : Word) : Nibble := w.extractLsb' 0 4
/-- `w[7:0]`, the low byte: an immediate or a secondary key. -/
def fieldKK (w : Word) : Byte := w.extractLsb' 0 8
/-- `w[11:0]`, an address. -/
def fieldNNN (w : Word) : Addr12 := w.extractLsb' 0 12

/-- A word from its two bytes, the byte at the lower address high (R45). -/
def wordOfBytes (hi lo : Byte) : Word := hi ++ lo
/-- The byte of a word that stands at the lower address, bits 15..8 (R45). -/
def highByte (w : Word) : Byte := w.extractLsb' 8 8
/-- The byte of a word that stands at the higher address, bits 7..0 (R45). -/
def lowByte (w : Word) : Byte := w.extractLsb' 0 8

/-! ### The decoder (R60) -/

/-- Why a word selects no instruction: the category in which its secondary key has no handler. Such a
word is NOT illegal: it executes as a no-op (R64). -/
inductive Unassigned where
  /-- Category 0x0 with `w[3:0]` neither 0x0 nor 0xE. -/
  | category0
  /-- Category 0x8 with `w[3:0]` in 0x8..0xD or 0xF. -/
  | category8
  /-- Category 0xE with `w[3:0]` neither 0x1 nor 0xE. -/
  | categoryE
  /-- Category 0xF with `w[7:0]` none of the nine keys. -/
  | categoryF
deriving DecidableEq, Repr

/-- Category 0x0: secondary key `w[3:0]` (R60). -/
def decode0 (w : Word) : Except Unassigned Instr :=
  match fieldN w with
  | 0x0#4 => .ok .cls
  | 0xE#4 => .ok .ret
  | _ => .error .category0

/-- Category 0x8: secondary key `w[3:0]` (R60). -/
def decode8 (w : Word) : Except Unassigned Instr :=
  match fieldN w with
  | 0x0#4 => .ok (.ldReg (fieldX w) (fieldY w))
  | 0x1#4 => .ok (.orReg (fieldX w) (fieldY w))
  | 0x2#4 => .ok (.andReg (fieldX w) (fieldY w))
  | 0x3#4 => .ok (.xorReg (fieldX w) (fieldY w))
  | 0x4#4 => .ok (.addReg (fieldX w) (fieldY w))
  | 0x5#4 => .ok (.sub (fieldX w) (fieldY w))
  | 0x6#4 => .ok (.shr (fieldX w) (fieldY w))
  | 0x7#4 => .ok (.subn (fieldX w) (fieldY w))
  | 0xE#4 => .ok (.shl (fieldX w) (fieldY w))
  | _ => .error .category8

/-- Category 0xE: secondary key `w[3:0]` (R60). -/
def decodeE (w : Word) : Except Unassigned Instr :=
  match fieldN w with
  | 0xE#4 => .ok (.skp (fieldX w))
  | 0x1#4 => .ok (.sknp (fieldX w))
  | _ => .error .categoryE

/-- Category 0xF: secondary key `w[7:0]` (R60). -/
def decodeF (w : Word) : Except Unassigned Instr :=
  match fieldKK w with
  | 0x07#8 => .ok (.ldVxDT (fieldX w))
  | 0x0A#8 => .ok (.ldVxK (fieldX w))
  | 0x15#8 => .ok (.ldDTVx (fieldX w))
  | 0x18#8 => .ok (.ldSTVx (fieldX w))
  | 0x1E#8 => .ok (.addI (fieldX w))
  | 0x29#8 => .ok (.ldF (fieldX w))
  | 0x33#8 => .ok (.ldB (fieldX w))
  | 0x55#8 => .ok (.ldMemVx (fieldX w))
  | 0x65#8 => .ok (.ldVxMem (fieldX w))
  | _ => .error .categoryF

/-- The decoder: total, every word selects one instruction or is unassigned (R60). The last arm is
category 0xF, the only value left. -/
def decode (w : Word) : Except Unassigned Instr :=
  match fieldCat w with
  | 0x0#4 => decode0 w
  | 0x1#4 => .ok (.jp (fieldNNN w))
  | 0x2#4 => .ok (.call (fieldNNN w))
  | 0x3#4 => .ok (.seImm (fieldX w) (fieldKK w))
  | 0x4#4 => .ok (.sneImm (fieldX w) (fieldKK w))
  | 0x5#4 => .ok (.seReg (fieldX w) (fieldY w))
  | 0x6#4 => .ok (.ldImm (fieldX w) (fieldKK w))
  | 0x7#4 => .ok (.addImm (fieldX w) (fieldKK w))
  | 0x8#4 => decode8 w
  | 0x9#4 => .ok (.sneReg (fieldX w) (fieldY w))
  | 0xA#4 => .ok (.ldI (fieldNNN w))
  | 0xB#4 => .ok (.jpV0 (fieldNNN w))
  | 0xC#4 => .ok (.rnd (fieldX w) (fieldKK w))
  | 0xD#4 => .ok (.drw (fieldX w) (fieldY w) (fieldN w))
  | 0xE#4 => decodeE w
  | _ => decodeF w

/-- The aliased words of R62: they select an instruction but differ from its canonical word in digits
the decoder ignores. -/
def isAliasedWord (w : Word) : Bool :=
  match fieldCat w with
  | 0x0#4 => (fieldN w == 0x0#4 || fieldN w == 0xE#4) && w.extractLsb' 4 8 != 0x0E#8
  | 0x5#4 => fieldN w != 0x0#4
  | 0x9#4 => fieldN w != 0x0#4
  | 0xE#4 => (fieldN w == 0xE#4 && fieldY w != 0x9#4) || (fieldN w == 0x1#4 && fieldY w != 0xA#4)
  | _ => false

/-! ### Byte sequences -/

/-- Why a byte sequence gives no instruction. -/
inductive ByteReject where
  /-- Fewer than the two bytes of a word (R53). -/
  | tooShort
  /-- The first word is unassigned (R64). -/
  | unassigned (u : Unassigned)
deriving DecidableEq, Repr

/-- The instruction at the front of a byte sequence, and the bytes after it (R45, R53). -/
def decodeBytes (bytes : List Byte) : Except ByteReject (Instr × List Byte) :=
  match bytes with
  | hi :: lo :: rest =>
    match decode (wordOfBytes hi lo) with
    | .ok i => .ok (i, rest)
    | .error u => .error (.unassigned u)
  | _ => .error .tooShort

/-- A word numbered as the opcode table numbers it (bit 0 the least significant of its one 16-bit word),
of which only the low `nbits` bits are given: laid out as the two bytes memory holds. -/
def tableBytes (nbits w : Nat) : List Byte :=
  let word : Word := BitVec.ofNat 16 (w % 2 ^ nbits)
  [highByte word, lowByte word]

/-- What the decoder reads from a table-numbered word; `none` for an unassigned word. -/
def decodeTableWord (nbits w : Nat) : Option Instr :=
  match decodeBytes (tableBytes nbits w) with
  | .ok (i, _) => some i
  | .error _ => none

/-! ### The encoder: canonical words (R55, R61) -/

/-- Format `A`: `cccc nnnn nnnn nnnn`. -/
def encA (cat : Nibble) (nnn : Addr12) : Word := cat ++ nnn
/-- Formats `XK` and `XF`: `cccc xxxx kkkk kkkk`. -/
def encXK (cat x : Nibble) (kk : Byte) : Word := cat ++ x ++ kk
/-- Formats `XY`, `XYS`, `XYN` and `XE`: `cccc xxxx yyyy nnnn`. -/
def encXYN (cat x y n : Nibble) : Word := cat ++ x ++ y ++ n

/-- The canonical word of an instruction, the pattern of R61. -/
def encode (i : Instr) : Word :=
  match i with
  | .cls => 0x00E0#16
  | .ret => 0x00EE#16
  | .jp nnn => encA 0x1#4 nnn
  | .call nnn => encA 0x2#4 nnn
  | .seImm x kk => encXK 0x3#4 x kk
  | .sneImm x kk => encXK 0x4#4 x kk
  | .seReg x y => encXYN 0x5#4 x y 0x0#4
  | .ldImm x kk => encXK 0x6#4 x kk
  | .addImm x kk => encXK 0x7#4 x kk
  | .ldReg x y => encXYN 0x8#4 x y 0x0#4
  | .orReg x y => encXYN 0x8#4 x y 0x1#4
  | .andReg x y => encXYN 0x8#4 x y 0x2#4
  | .xorReg x y => encXYN 0x8#4 x y 0x3#4
  | .addReg x y => encXYN 0x8#4 x y 0x4#4
  | .sub x y => encXYN 0x8#4 x y 0x5#4
  | .shr x y => encXYN 0x8#4 x y 0x6#4
  | .subn x y => encXYN 0x8#4 x y 0x7#4
  | .shl x y => encXYN 0x8#4 x y 0xE#4
  | .sneReg x y => encXYN 0x9#4 x y 0x0#4
  | .ldI nnn => encA 0xA#4 nnn
  | .jpV0 nnn => encA 0xB#4 nnn
  | .rnd x kk => encXK 0xC#4 x kk
  | .drw x y n => encXYN 0xD#4 x y n
  | .skp x => encXYN 0xE#4 x 0x9#4 0xE#4
  | .sknp x => encXYN 0xE#4 x 0xA#4 0x1#4
  | .ldVxDT x => encXK 0xF#4 x 0x07#8
  | .ldVxK x => encXK 0xF#4 x 0x0A#8
  | .ldDTVx x => encXK 0xF#4 x 0x15#8
  | .ldSTVx x => encXK 0xF#4 x 0x18#8
  | .addI x => encXK 0xF#4 x 0x1E#8
  | .ldF x => encXK 0xF#4 x 0x29#8
  | .ldB x => encXK 0xF#4 x 0x33#8
  | .ldMemVx x => encXK 0xF#4 x 0x55#8
  | .ldVxMem x => encXK 0xF#4 x 0x65#8

end Sys2Proof
end

