-- ==== Sys2Proof/Config.lean ====
section
/-! DEFINITION. What an implementation fixes (00_scope.md R8) and the machine's one free value, the random
byte (44_alu.md R99). -/

namespace Sys2Proof

/-- SPRITE_EDGE: what a sprite bit past an edge of the display targets (41_display.md R71, D8). -/
inductive SpriteEdge where
  /-- The reference's linear index, with a fault past pixel 2047: the spec's default. -/
  | rawLinearFault
  /-- Such a bit targets nothing. -/
  | clip
  /-- Columns modulo 64, rows modulo 32. -/
  | wrap
deriving DecidableEq, Repr

/-- DECODE_ALIAS: what a step does with an aliased word (30_encoding.md R62, D19). -/
inductive DecodeAlias where
  /-- It runs as its canonical word: the spec's default. -/
  | execute
  /-- The step is refused. -/
  | refuse
deriving DecidableEq, Repr

/-- FONT: one 5-byte glyph per hexadecimal digit, 80 bytes in all (10_state.md R34). -/
abbrev Font := Vector (Vector Byte 5) 16

/-- The parameters R8 hands to the model that a step depends on. They are fixed for a machine: State
carries them and no operation changes them (log entry 1). -/
structure Params where
  /-- FONT: the content of 0x050..0x09F after construction (R34, D11). -/
  font : Font
  /-- SPRITE_EDGE. -/
  spriteEdge : SpriteEdge
  /-- DECODE_ALIAS. -/
  decodeAlias : DecodeAlias
deriving DecidableEq, Repr

/-- The spec's default FONT, the table of 10_state.md R34. PRESUMED: the spec marks these bytes as general
knowledge, not in its source (G1; log entry 3). -/
def Config.defaultFont : Font := #v[
  #v[0xF0, 0x90, 0x90, 0x90, 0xF0],
  #v[0x20, 0x60, 0x20, 0x20, 0x70],
  #v[0xF0, 0x10, 0xF0, 0x80, 0xF0],
  #v[0xF0, 0x10, 0xF0, 0x10, 0xF0],
  #v[0x90, 0x90, 0xF0, 0x10, 0x10],
  #v[0xF0, 0x80, 0xF0, 0x10, 0xF0],
  #v[0xF0, 0x80, 0xF0, 0x90, 0xF0],
  #v[0xF0, 0x10, 0x20, 0x40, 0x40],
  #v[0xF0, 0x90, 0xF0, 0x90, 0xF0],
  #v[0xF0, 0x90, 0xF0, 0x10, 0xF0],
  #v[0xF0, 0x90, 0xF0, 0x90, 0x90],
  #v[0xE0, 0x90, 0xE0, 0x90, 0xE0],
  #v[0xF0, 0x80, 0x80, 0x80, 0xF0],
  #v[0xE0, 0x90, 0x90, 0x90, 0xE0],
  #v[0xF0, 0x80, 0xF0, 0x80, 0xF0],
  #v[0xF0, 0x80, 0xF0, 0x80, 0x80]]

/-- The spec's defaults of the parameters (R8). -/
def Config.defaultParams : Params where
  font := Config.defaultFont
  spriteEdge := .rawLinearFault
  decodeAlias := .execute

/-- The random source: the byte of the `k`-th draw, under no law (R31, R99, D13). A free value: it has no
body, so nothing can be proved of any byte it gives (log entry 2). -/
opaque Config.draw : Nat → Byte

end Sys2Proof
end

