-- ==== Sys2Proof/Machine/State.lean ====
section
/-! DEFINITION. The state of the machine (10_state.md R16), its reset value (R35), and the reasons for which
a step can stop. -/

namespace Sys2Proof.Machine

/-- The fault kinds of 60_exceptions.md R112. They are machine state: a faulting step has a NEXT state
that records one (R114). -/
inductive FaultKind where
  /-- `FETCH_BOUNDS`: every step, at fetch. -/
  | fetchBounds
  /-- `MEM_BOUNDS`: Dxyn, Fx33, Fx55, Fx65. -/
  | memBounds
  /-- `STACK_OVERFLOW`: 2nnn. -/
  | stackOverflow
  /-- `STACK_UNDERFLOW`: 00EE. -/
  | stackUnderflow
  /-- `KEY_INDEX`: Ex9E, ExA1. -/
  | keyIndex
  /-- `DISPLAY_BOUNDS`: Dxyn under `RAW_LINEAR_FAULT`. -/
  | displayBounds
deriving DecidableEq, Repr

/-- The fault record of 10_state.md R32. -/
structure FaultRecord where
  kind    : FaultKind
  /-- The address of the faulting instruction, `pc` at the start of the step. -/
  faultPc : Word
  /-- The fetched word; none for a fetch fault. -/
  opcode  : Option Word
  /-- The offending address, stack pointer, key index or pixel index: an unbounded number (R43). -/
  addr    : Option Nat
deriving DecidableEq, Repr

/-- The display: 2048 one-bit pixels, pixel (x, y) at index y*64 + x; pixel t is bit t, on when set (R16,
R28, log entry 5). -/
abbrev Display := BitVec 2048

/-- The state of the machine: the elements of 10_state.md R16, and the parameters of 00_scope.md R8. -/
structure State where
  /-- M: the cells that differ from the content after construction, addresses rising (log entry 4). -/
  mem : List Host.Cell
  /-- V[0x0]..V[0xF] (R18); V[0xF] is VF, the flag register (R20). -/
  v : Vector Byte 16
  /-- I, the index register (R23). -/
  i : Word
  /-- The program counter (R21). -/
  pc : Word
  /-- The return stack (R24). -/
  stack : Vector Word 16
  /-- SP: the number of stack entries in use, legal values 0..16 (R25). -/
  sp : Byte
  /-- DT, the delay timer (R26). -/
  dt : Byte
  /-- ST, the sound timer (R27). -/
  st : Byte
  /-- The pixels (R28). -/
  display : Display
  /-- The key cells; true is pressed. Written by the host only (R29). -/
  keys : Vector Bool 16
  /-- `current_opcode`, the word of the current step (R30). -/
  currentOpcode : Word
  /-- `rng`: how many bytes were drawn so far; the next draw is `Config.draw rng` (R31, log entry 2). -/
  rng : Nat
  /-- `fault`: none while the machine runs (R32). -/
  fault : Option FaultRecord
  /-- A `load` has succeeded (R33). -/
  loaded : Bool
  /-- A `step` has been executed (R33). -/
  started : Bool
  /-- The parameters of R8; no operation writes them (log entry 1). -/
  params : Params
deriving DecidableEq, Repr

/-- The machine right after construction with given parameters (10_state.md R35,
70_reset_and_hazards.md R126). Memory lists nothing: an unlisted address reads as its content after
construction, FONT at 0x050..0x09F and zero elsewhere. -/
def State.constructed (p : Params) : State where
  mem := []
  v := Vector.replicate 16 0
  i := 0
  pc := 0x200
  stack := Vector.replicate 16 0
  sp := 0
  dt := 0
  st := 0
  display := 0
  keys := Vector.replicate 16 false
  currentOpcode := 0
  rng := 0
  fault := none
  loaded := false
  started := false
  params := p

/-- The machine right after reset, under the spec's default parameters. -/
def State.reset : State := State.constructed Config.defaultParams

/-- Stops of the machine that the spec gives no state for. The spec's own faults are NOT here: they are
next states with a fault record. -/
inductive Fault where
  /-- 2nnn with SP above 16, or 00EE with SP above 16: a state that is not well-formed (10_state.md R17,
  R25), which no step reaches; the spec gives these no effect. Safe. -/
  | stackPointerRange
deriving DecidableEq, Repr

/-- What the machine gives no meaning (60_exceptions.md R118). -/
inductive Refusal where
  /-- An instruction without a meaning in this model: raised by exec's arm only. Safe. -/
  | notModelled (mnemonic : String)
  /-- A step of a machine whose `fault` is not none: raised by step (R115). The spec's own refusal; safe. -/
  | machineFaulted
  /-- A step that fetches an aliased word under `DECODE_ALIAS = REFUSE`: raised by step (R118). The
  spec's own refusal; safe. -/
  | aliasedWord
  /-- A `load` on a faulted or started machine or after a successful `load`: raised by load (R118, R128).
  The spec's own refusal; safe. -/
  | lateLoad
deriving DecidableEq, Repr

/-- What an instruction or a step answers. -/
abbrev Out := Host.Outcome State Fault Refusal

end Sys2Proof.Machine
end

