-- ==== Sys2Proof/Machine/Ops.lean ====
section
/-! DEFINITION. The named operations over memory, registers, stack, timers and faults, and the stages of a
step other than decode and execute (20_memory.md, 30_encoding.md R57-R65, 60_exceptions.md R112-R114). -/

namespace Sys2Proof.Machine

/-! ### Memory (R38, R40, R43, R44) -/

/-- `font_base` (00_scope.md R7). -/
def fontBase : Nat := 0x050

/-- FONT[k], byte `k` of the table: row `k mod 5` of glyph `k div 5` (R34). -/
def fontByte (font : Font) (k : Fin 80) : Byte :=
  (font[k.val / 5]'(by omega))[k.val % 5]'(Nat.mod_lt _ (by omega))

/-- What an unlisted address reads as: its content after construction (R40). -/
def unlistedByte (font : Font) (a : Nat) : Byte :=
  if h : 0x050 ≤ a ∧ a < 0x0A0 then fontByte font ⟨a - 0x050, by omega⟩ else 0

/-- An address is in range when it is in 0x000..0xFFF (R43). -/
def inRange (a : Nat) : Bool := a ≤ 0xFFF

/-- The byte listed at an address. -/
def Memory.lookup : List Host.Cell → Nat → Option Byte
  | [], _ => none
  | (k, b) :: m, a => if k = a then some b else Memory.lookup m a

/-- List a byte at an address, in rising order. -/
def Memory.insert (a : Nat) (b : Byte) : List Host.Cell → List Host.Cell
  | [] => [(a, b)]
  | (k, c) :: m =>
    if a < k then (a, b) :: (k, c) :: m
    else if a = k then (a, b) :: m
    else (k, c) :: Memory.insert a b m

/-- List nothing at an address. -/
def Memory.erase (a : Nat) (m : List Host.Cell) : List Host.Cell :=
  m.filter (fun c => c.1 != a)

/-- Store a byte, keeping the canonical form: a byte equal to the unlisted one is not listed. -/
def Memory.write (font : Font) (m : List Host.Cell) (a : Nat) (b : Byte) : List Host.Cell :=
  if b = unlistedByte font a then Memory.erase a m else Memory.insert a b m

/-- The canonical form: addresses strictly rising, all in range, no entry equal to the unlisted byte. -/
abbrev Memory.wf (font : Font) (m : List Host.Cell) : Prop :=
  m.Pairwise (fun p q => p.1 < q.1) ∧ ∀ c ∈ m, c.1 < 0x1000 ∧ c.2 ≠ unlistedByte font c.1

/-- M[a] (R14, R44). Every caller has checked that `a` is in range. -/
def State.readByte (s : State) (a : Nat) : Byte :=
  (Memory.lookup s.mem a).getD (unlistedByte s.params.font a)

/-- M[a] <- b (R14, R44). Every caller has checked that `a` is in range; an address out of range does not
exist, so nothing is written there. -/
def State.writeByte (s : State) (a : Nat) (b : Byte) : State :=
  if inRange a then { s with mem := Memory.write s.params.font s.mem a b } else s

/-- Bytes at consecutive ascending addresses, stored in that order (R42). -/
def State.storeBytes (s : State) (a : Nat) : List Byte → State
  | [] => s
  | b :: bs => (s.writeByte a b).storeBytes (a + 1) bs

/-- `count` bytes at consecutive ascending addresses (R42). -/
def State.loadBytes (s : State) (a : Nat) : Nat → List Byte
  | 0 => []
  | count + 1 => s.readByte a :: s.loadBytes (a + 1) count

/-- The check of a whole transfer of `count` bytes from `base`, made before its first access (R44, R100):
the least address out of range, if there is one (R112). Addresses are unbounded (R43). -/
def transferFault (base count : Nat) : Option Nat :=
  if 0 < count ∧ 0xFFF < base + (count - 1) then some (max base 0x1000) else none

/-! ### Registers (R18, R12) -/

/-- V[r]. -/
def State.getV (s : State) (r : Nibble) : Byte := s.v[r.toNat]'(r.isLt)

/-- V[r] <- b. -/
def State.setV (s : State) (r : Nibble) (b : Byte) : State :=
  { s with v := s.v.set r.toNat b r.isLt }

/-- The index of VF (R12). -/
def flagIndex : Nibble := 0xF

/-- VF <- b (R20). -/
def State.setVF (s : State) (b : Byte) : State := s.setV flagIndex b

/-- V[r], V[r+1], ... <- the bytes in order; an index past 0xF does not exist. -/
def State.setVs (s : State) (r : Nat) : List Byte → State
  | [] => s
  | b :: bs => (if r < 16 then s.setV (BitVec.ofNat 4 r) b else s).setVs (r + 1) bs

/-- I <- w. -/
def State.setI (s : State) (w : Word) : State := { s with i := w }

/-- pc <- w (R14). -/
def State.setPc (s : State) (w : Word) : State := { s with pc := w }

/-- DT <- b. -/
def State.setDT (s : State) (b : Byte) : State := { s with dt := b }

/-- ST <- b. -/
def State.setST (s : State) (b : Byte) : State := { s with st := b }

/-- display <- d. -/
def State.setDisplay (s : State) (d : Display) : State := { s with display := d }

/-- A skip adds 2 to the advanced pc when its condition holds (43_skips.md R78). -/
def State.skipIf (s : State) (condition : Bool) : State :=
  if condition then s.setPc (s.pc + 2) else s

/-! ### The random source (R31, R99) -/

/-- `Draw()`: the next byte of the random source, and the state after it. -/
def State.draw (s : State) : Byte × State := (Config.draw s.rng, { s with rng := s.rng + 1 })

/-! ### Faults (R112-R114) -/

/-- The numeric codes of R112. -/
def faultCode (k : FaultKind) : Nat :=
  match k with
  | .fetchBounds => 1
  | .memBounds => 2
  | .stackOverflow => 3
  | .stackUnderflow => 4
  | .keyIndex => 5
  | .displayBounds => 6

/-- Fault entry (R114): the record is set and `pc` is the address of the faulting instruction. -/
def enterFault (r : FaultRecord) (s : State) : State :=
  { s with pc := r.faultPc, started := true, fault := some r }

/-- `raise Fault(kind, addr)` in the execute stage (R14, R114). `s` is the state of the execute stage, in
which nothing was written since the fetch, `pc` is the advanced one and `currentOpcode` the fetched word:
the advance is undone (R113). -/
def raise (kind : FaultKind) (addr : Nat) (s : State) : Out :=
  .next (enterFault
    { kind := kind, faultPc := s.pc - 2, opcode := some s.currentOpcode, addr := some addr } s)

/-! ### The return stack (R24, R25) -/

/-- The stack, SP and pc together. -/
def State.setFrame (s : State) (stack : Vector Word 16) (sp : Byte) (pc : Word) : State :=
  { s with stack := stack, sp := sp, pc := pc }

/-- Push the advanced pc and jump (R76). -/
def pushAndJump (target : Word) (s : State) : Out :=
  if s.sp.toNat = 16 then raise .stackOverflow s.sp.toNat s
  else if h : s.sp.toNat < 16 then
    .next (s.setFrame (s.stack.set s.sp.toNat s.pc h) (s.sp + 1) target)
  else .fault .stackPointerRange

/-- Pop the most recent return address into pc; the entry is not cleared (R74). -/
def popAndJump (s : State) : Out :=
  if s.sp.toNat = 0 then raise .stackUnderflow s.sp.toNat s
  else
    match s.stack[s.sp.toNat - 1]? with
    | some target => .next (s.setFrame s.stack (s.sp - 1) target)
    | none => .fault .stackPointerRange

/-! ### Keys (R29, R83) -/

/-- The key cell of that number, if there is one: the whole byte is the index (R83). -/
def State.keyCell (s : State) (k : Byte) : Option Bool := s.keys[k.toNat]?

/-- The least number of a pressed key (R110). -/
def lowestPressedKey (keys : Vector Bool 16) : Option Nat := keys.toList.findIdx? (fun down => down)

/-! ### The stages of a step (R57) -/

/-- Fetch (R58): the word at pc and pc + 1, high byte first, or none where a byte of it is outside memory. -/
def fetchWord (s : State) : Option Word :=
  if 0xFFF < s.pc.toNat + 1 then none
  else some (wordOfBytes (s.readByte s.pc.toNat) (s.readByte (s.pc.toNat + 1)))

/-- The step that faults at fetch (R58, R112): no word, addr = pc0. -/
def fetchFault (s : State) : State :=
  enterFault { kind := .fetchBounds, faultPc := s.pc, opcode := none, addr := some s.pc.toNat } s

/-- What stands before the execute stage: `started` is set, the word is the current one, pc is advanced
(R57, R59). -/
def beginExecute (w : Word) (s : State) : State :=
  { s with started := true, currentOpcode := w, pc := s.pc + 2 }

/-- The execute stage of an unassigned word: nothing (R64). -/
def execUnassigned (_why : Unassigned) (s : State) : Out := .next s

/-- One timer's decrement, 0 the floor (R65). -/
def tickTimer (t : Byte) : Byte := if 0 < t.toNat then t - 1 else t

/-- The timer stage (R65). -/
def timerStage (s : State) : State := { s with dt := tickTimer s.dt, st := tickTimer s.st }

/-- The end of a step that began in `s0` and whose execute stage left `t`: after a fault the timer stage
does not run and `current_opcode` is the one before the step (R113, R114); else the timer stage runs
(R65). -/
def endStep (s0 t : State) : State :=
  if t.fault.isSome then { t with currentOpcode := s0.currentOpcode } else timerStage t

/-- The step is refused: an aliased word under `DECODE_ALIAS = REFUSE` (R62, R118). -/
def refusesWord (p : Params) (w : Word) : Bool :=
  isAliasedWord w && p.decodeAlias == .refuse

/-- A table-numbered word stored where the next step fetches: high byte at pc, low byte at pc + 1 (R45). -/
def placeWord (s : State) (nbits w : Nat) : State :=
  s.storeBytes s.pc.toNat (tableBytes nbits w)

end Sys2Proof.Machine
end

