-- ==== Sys2Proof/Machine/Flags.lean ====
section
/-! DEFINITION. The values that instructions write to VF as a flag (10_state.md R20, 44_alu.md R86). -/

namespace Sys2Proof.Machine

/-- A flag in VF: 1 or 0. -/
def flagByte (c : Bool) : Byte := if c then 1 else 0

/-- 8xy4: 1 when the unsigned sum exceeds 255 (R94). -/
def carryFlag (a b : Byte) : Byte := flagByte (decide (255 < a.toNat + b.toNat))

/-- 8xy5, 8xy7: 1 when the minuend is strictly greater than the subtrahend (R95, R96). -/
def notBorrowFlag (minuend subtrahend : Byte) : Byte :=
  flagByte (decide (subtrahend.toNat < minuend.toNat))

/-- 8xy6: the bit shifted out at the right (R97). -/
def shiftRightFlag (b : Byte) : Byte := b &&& 1

/-- 8xyE: the bit shifted out at the left (R98). -/
def shiftLeftFlag (b : Byte) : Byte := (b &&& 0x80) >>> 7

/-- Dxyn: 1 when any lit pixel was turned off (R72). -/
def collisionFlag (collision : Bool) : Byte := flagByte collision

end Sys2Proof.Machine
end

