-- ==== Sys2Proof/Machine/Operands.lean ====
section
/-! DEFINITION. The operand forms (30_encoding.md R56, 45_index_memory.md R100, R103, R104). A register
operand is `State.getV`, an immediate byte is used as it is. -/

namespace Sys2Proof.Machine

/-- `zext_16(nnn)`: the address operand (R56). -/
def addrOperand (nnn : Addr12) : Word := nnn.zeroExtend 16

/-- `zext_16(b)`: a byte in a 16-bit sum (R11). -/
def byteOperand (b : Byte) : Word := b.zeroExtend 16

/-- The first address of a transfer through I, an unbounded number (R43, R100). -/
def State.indexBase (s : State) : Nat := s.i.toNat

/-- How many registers Fx55 and Fx65 move: V[0]..V[x] (R105, R106). -/
def registerCount (x : Nibble) : Nat := x.toNat + 1

/-- V[0]..V[x] (R105). -/
def State.registersUpTo (s : State) (x : Nibble) : List Byte := s.v.toList.take (registerCount x)

/-- The three decimal digits of a byte, hundreds first (R104). -/
def decimalDigits (b : Byte) : List Byte :=
  [BitVec.ofNat 8 (b.toNat / 100), BitVec.ofNat 8 (b.toNat / 10 % 10), BitVec.ofNat 8 (b.toNat % 10)]

/-- The address of the glyph that the whole byte selects, `font_base + 5 * b` (R103, conflict C2). -/
def glyphAddress (b : Byte) : Word := BitVec.ofNat 16 (fontBase + 5 * b.toNat)

end Sys2Proof.Machine
end

