-- ==== Sys2Proof/Machine/Alu.lean ====
section
/-! DEFINITION. 6xkk, 7xkk, 8xy0-8xy7, 8xyE, Cxkk (44_alu.md R86-R99). The flag writers write VF FIRST and
V[x] after it; 8xy5 and 8xy7 read their operands again after VF is written (00_scope.md R13, R87). -/

namespace Sys2Proof.Machine

/-- 6xkk: V[x] <- kk (R88). -/
def execLdImm (x : Nibble) (kk : Byte) (s : State) : Out := .next (s.setV x kk)

/-- 7xkk: V[x] <- V[x] + kk modulo 256, no flag (R89). -/
def execAddImm (x : Nibble) (kk : Byte) (s : State) : Out := .next (s.setV x (s.getV x + kk))

/-- 8xy0: V[x] <- V[y] (R90). -/
def execLdReg (x y : Nibble) (s : State) : Out := .next (s.setV x (s.getV y))

/-- 8xy1: V[x] <- V[x] OR V[y] (R91). -/
def execOrReg (x y : Nibble) (s : State) : Out := .next (s.setV x (s.getV x ||| s.getV y))

/-- 8xy2: V[x] <- V[x] AND V[y] (R92). -/
def execAndReg (x y : Nibble) (s : State) : Out := .next (s.setV x (s.getV x &&& s.getV y))

/-- 8xy3: V[x] <- V[x] XOR V[y] (R93). -/
def execXorReg (x y : Nibble) (s : State) : Out := .next (s.setV x (s.getV x ^^^ s.getV y))

/-- 8xy4: VF <- carry, then V[x] <- the sum of the operands before the instruction (R94). -/
def execAddReg (x y : Nibble) (s : State) : Out :=
  .next ((s.setVF (carryFlag (s.getV x) (s.getV y))).setV x (s.getV x + s.getV y))

/-- 8xy5: VF <- NOT-borrow, then V[x] <- V[x] - V[y] as they stand then (R95). -/
def execSub (x y : Nibble) (s : State) : Out :=
  let t := s.setVF (notBorrowFlag (s.getV x) (s.getV y))
  .next (t.setV x (t.getV x - t.getV y))

/-- 8xy6: VF <- bit 0, then V[x] <- V[x] >> 1 as it stands then; y is not used (R97). -/
def execShr (x _y : Nibble) (s : State) : Out :=
  let t := s.setVF (shiftRightFlag (s.getV x))
  .next (t.setV x (t.getV x >>> 1))

/-- 8xy7: VF <- NOT-borrow, then V[x] <- V[y] - V[x] as they stand then (R96). -/
def execSubn (x y : Nibble) (s : State) : Out :=
  let t := s.setVF (notBorrowFlag (s.getV y) (s.getV x))
  .next (t.setV x (t.getV y - t.getV x))

/-- 8xyE: VF <- bit 7, then V[x] <- V[x] << 1 as it stands then; y is not used (R98). -/
def execShl (x _y : Nibble) (s : State) : Out :=
  let t := s.setVF (shiftLeftFlag (s.getV x))
  .next (t.setV x (t.getV x <<< 1))

/-- Cxkk: V[x] <- Draw() AND kk (R99). -/
def execRnd (x : Nibble) (kk : Byte) (s : State) : Out :=
  .next (s.draw.2.setV x (s.draw.1 &&& kk))

end Sys2Proof.Machine
end

