-- ==== Sys2Proof/Machine/ControlFlow.lean ====
section
/-! DEFINITION. 00EE, 1nnn, 2nnn, Bnnn (42_control_flow.md R73-R77). -/

namespace Sys2Proof.Machine

/-- 00EE: pop the return address into pc; STACK_UNDERFLOW at SP = 0 (R74). -/
def execRet (s : State) : Out := popAndJump s

/-- 1nnn: pc <- nnn, unchecked (R75, R73). -/
def execJp (nnn : Addr12) (s : State) : Out := .next (s.setPc (addrOperand nnn))

/-- 2nnn: push the advanced pc and jump; STACK_OVERFLOW at SP = 16 (R76). -/
def execCall (nnn : Addr12) (s : State) : Out := pushAndJump (addrOperand nnn) s

/-- Bnnn: pc <- nnn + V[0], always V[0], not reduced modulo 0x1000 (R77). -/
def execJpV0 (nnn : Addr12) (s : State) : Out :=
  .next (s.setPc (addrOperand nnn + byteOperand (s.getV 0)))

end Sys2Proof.Machine
end

