-- ==== Sys2Proof/Machine/Display.lean ====
section
/-! DEFINITION. 00E0 and Dxyn: the display and the sprite drawer (41_display.md R68-R72). -/

namespace Sys2Proof.Machine

/-- Where a sprite bit lands (R71). -/
inductive SpriteTarget where
  /-- Pixel `t` of the display. -/
  | pixel (t : Nat)
  /-- Linear index `t`, past the display: Dxyn faults. -/
  | out (t : Nat)
  /-- Nowhere: the bit is clipped. -/
  | nowhere
deriving DecidableEq, Repr

/-- `Target(i, j)` for the start (xpos, ypos) (R71). -/
def spriteTarget (edge : SpriteEdge) (xpos ypos i j : Nat) : SpriteTarget :=
  match edge with
  | .rawLinearFault =>
    if 2047 < (ypos + i) * 64 + (xpos + j) then .out ((ypos + i) * 64 + (xpos + j))
    else .pixel ((ypos + i) * 64 + (xpos + j))
  | .clip =>
    if 63 < xpos + j ∨ 31 < ypos + i then .nowhere
    else .pixel ((ypos + i) * 64 + (xpos + j))
  | .wrap => .pixel (((ypos + i) % 32) * 64 + (xpos + j) % 64)

/-- Column `j` of a sprite row is bit 7 - j: the most significant bit is leftmost (R70, log entry 9). -/
def spriteBit (row : Byte) (j : Nat) : Bool := row.getLsbD (7 - j)

/-- The set bits (i, j) of a sprite, row index counted from `i0`, in the order i then j (R72). -/
def spriteBits (i0 : Nat) : List Byte → List (Nat × Nat)
  | [] => []
  | row :: rows =>
    ((List.range 8).filter (spriteBit row)).map (fun j => (i0, j)) ++ spriteBits (i0 + 1) rows

/-- The targets of the set bits, in order. A clear bit has none (R72). -/
def spriteTargets (edge : SpriteEdge) (xpos ypos : Nat) (rows : List Byte) : List SpriteTarget :=
  (spriteBits 0 rows).map (fun ij => spriteTarget edge xpos ypos ij.1 ij.2)

/-- The first target past the display (R72's check phase). -/
def firstOut : List SpriteTarget → Option Nat
  | [] => none
  | .out t :: _ => some t
  | _ :: ts => firstOut ts

/-- The pixels among the targets, in order. -/
def pixelsOf : List SpriteTarget → List Nat
  | [] => []
  | .pixel t :: ts => t :: pixelsOf ts
  | _ :: ts => pixelsOf ts

/-- Is pixel `t` on? -/
def pixelOn (d : Display) (t : Nat) : Bool := d.getLsbD t

/-- `display[t] <- not display[t]`. -/
def togglePixel (d : Display) (t : Nat) : Display :=
  d ^^^ BitVec.twoPow 2048 t

/-- The write phase of Dxyn (R72): toggle each pixel in order, and note whether one was on. -/
def drawPixels (d : Display) (collision : Bool) : List Nat → Display × Bool
  | [] => (d, collision)
  | t :: ts => drawPixels (togglePixel d t) (collision || pixelOn d t) ts

/-- The column a sprite starts at: V[x] mod 64 (R72). -/
def spriteColumn (b : Byte) : Nat := b.toNat % 64

/-- The row a sprite starts at: V[y] mod 32 (R72). -/
def spriteRow (b : Byte) : Nat := b.toNat % 32

/-- The display with every pixel off (R68). -/
def blankDisplay : Display := 0

/-- 00E0: every pixel off (R68). -/
def execCls (s : State) : Out := .next (s.setDisplay blankDisplay)

/-- The targets of the sprite that Dxyn draws: n rows from I, started at (V[x] mod 64, V[y] mod 32), the
coordinates read before VF is written (R72, D10). -/
def drawTargets (x y n : Nibble) (s : State) : List SpriteTarget :=
  spriteTargets s.params.spriteEdge (spriteColumn (s.getV x)) (spriteRow (s.getV y))
    (s.loadBytes s.indexBase n.toNat)

/-- Dxyn (R72): every memory check, then every display check, then the toggles, then VF. -/
def execDrw (x y n : Nibble) (s : State) : Out :=
  match transferFault s.indexBase n.toNat with
  | some a => raise .memBounds a s
  | none =>
    match firstOut (drawTargets x y n s) with
    | some t => raise .displayBounds t s
    | none =>
      let drawn := drawPixels s.display false (pixelsOf (drawTargets x y n s))
      .next ((s.setDisplay drawn.1).setVF (collisionFlag drawn.2))

end Sys2Proof.Machine
end

