-- ==== Sys2Proof/Machine/IndexMemory.lean ====
section
/-! DEFINITION. Annn, Fx1E, Fx29, Fx33, Fx55, Fx65 (45_index_memory.md R100-R106). No transfer changes I. -/

namespace Sys2Proof.Machine

/-- Annn: I <- nnn (R101). -/
def execLdI (nnn : Addr12) (s : State) : Out := .next (s.setI (addrOperand nnn))

/-- Fx1E: I <- I + V[x] modulo 65536, no flag (R102). -/
def execAddI (x : Nibble) (s : State) : Out := .next (s.setI (s.i + byteOperand (s.getV x)))

/-- Fx29: I <- 0x050 + 5 * V[x], the whole byte (R103). -/
def execLdF (x : Nibble) (s : State) : Out := .next (s.setI (glyphAddress (s.getV x)))

/-- Store bytes from I on, or fault with nothing stored (R100, R104, R105). -/
def storeThroughIndex (bytes : List Byte) (s : State) : Out :=
  match transferFault s.indexBase bytes.length with
  | some a => raise .memBounds a s
  | none => .next (s.storeBytes s.indexBase bytes)

/-- Fx33: the decimal digits of V[x] at I, I + 1, I + 2 (R104). -/
def execLdB (x : Nibble) (s : State) : Out := storeThroughIndex (decimalDigits (s.getV x)) s

/-- Fx55: V[0]..V[x] at I..I + x (R105). -/
def execLdMemVx (x : Nibble) (s : State) : Out := storeThroughIndex (s.registersUpTo x) s

/-- Fx65: V[0]..V[x] from I..I + x, or fault with nothing loaded (R106). -/
def execLdVxMem (x : Nibble) (s : State) : Out :=
  match transferFault s.indexBase (registerCount x) with
  | some a => raise .memBounds a s
  | none => .next (s.setVs 0 (s.loadBytes s.indexBase (registerCount x)))

end Sys2Proof.Machine
end

