-- ==== Sys2Proof/Machine/Skips.lean ====
section
/-! DEFINITION. 3xkk, 4xkk, 5xy0, 9xy0, Ex9E, ExA1 (43_skips.md R78-R85). -/

namespace Sys2Proof.Machine

/-- 3xkk: skip if V[x] = kk (R79). -/
def execSeImm (x : Nibble) (kk : Byte) (s : State) : Out := .next (s.skipIf (s.getV x == kk))

/-- 4xkk: skip if V[x] differs from kk (R80). -/
def execSneImm (x : Nibble) (kk : Byte) (s : State) : Out := .next (s.skipIf (s.getV x != kk))

/-- 5xy0: skip if V[x] = V[y] (R81). -/
def execSeReg (x y : Nibble) (s : State) : Out := .next (s.skipIf (s.getV x == s.getV y))

/-- 9xy0: skip if V[x] differs from V[y] (R82). -/
def execSneReg (x y : Nibble) (s : State) : Out := .next (s.skipIf (s.getV x != s.getV y))

/-- Skip on the state of the key numbered V[x]; KEY_INDEX when there is no such key (R83). -/
def skipOnKey (x : Nibble) (pressed : Bool) (s : State) : Out :=
  match s.keyCell (s.getV x) with
  | none => raise .keyIndex (s.getV x).toNat s
  | some down => .next (s.skipIf (down == pressed))

/-- Ex9E: skip if the key numbered V[x] is pressed (R84). -/
def execSkp (x : Nibble) (s : State) : Out := skipOnKey x true s

/-- ExA1: skip if the key numbered V[x] is not pressed (R85). -/
def execSknp (x : Nibble) (s : State) : Out := skipOnKey x false s

end Sys2Proof.Machine
end

