-- ==== Sys2Proof/Machine/TimersKeys.lean ====
section
/-! DEFINITION. Fx07, Fx0A, Fx15, Fx18 (46_timers_keys.md R107-R110). The timer stage runs after them, in
the same step. -/

namespace Sys2Proof.Machine

/-- Fx07: V[x] <- DT, as it stands before this step's timer stage (R107). -/
def execLdVxDT (x : Nibble) (s : State) : Out := .next (s.setV x s.dt)

/-- Fx0A: V[x] <- the lowest pressed key, or pc back by 2 so that the word is fetched again (R110). -/
def execLdVxK (x : Nibble) (s : State) : Out :=
  match lowestPressedKey s.keys with
  | some k => .next (s.setV x (BitVec.ofNat 8 k))
  | none => .next (s.setPc (s.pc - 2))

/-- Fx15: DT <- V[x] (R108). -/
def execLdDTVx (x : Nibble) (s : State) : Out := .next (s.setDT (s.getV x))

/-- Fx18: ST <- V[x] (R109). -/
def execLdSTVx (x : Nibble) (s : State) : Out := .next (s.setST (s.getV x))

end Sys2Proof.Machine
end

