-- ==== Sys2Proof/Machine/Step.lean ====
section
/-! DEFINITION. One step (30_encoding.md R57): fetch, advance, decode, execute, timers. -/

namespace Sys2Proof.Machine

/-- The execute stage of a fetched word: its instruction, or nothing for an unassigned word (R60, R64). -/
def executeWord (w : Word) (s : State) : Host.Outcome State Fault Refusal :=
  match decode w with
  | .ok i => exec i s
  | .error why => execUnassigned why s

/-- One step (R57). A faulted machine has none (R115); a fault at fetch is entered at once (R58); a word
that DECODE_ALIAS refuses is refused (R118). -/
def step (s : State) : Host.Outcome State Fault Refusal :=
  if s.fault.isSome then .refused .machineFaulted
  else
    match fetchWord s with
    | none => .next (fetchFault s)
    | some w =>
      if refusesWord s.params w then .refused .aliasedWord
      else
        match executeWord w (beginExecute w s) with
        | .next t => .next (endStep s t)
        | .fault f => .fault f
        | .refused r => .refused r

/-- `s` with a table-numbered word stored where the next step fetches. -/
def State.withFetchWord (s : State) (nbits w : Nat) : State := placeWord s nbits w

end Sys2Proof.Machine
end

