-- ==== Sys2Proof/Machine/HostOps.lean ====
section
/-! DEFINITION. What the host does and reads between steps: construct, load, the key write, the outputs
(10_state.md R36, R37; 60_exceptions.md R123, R124; 70_reset_and_hazards.md R126, R128). -/

namespace Sys2Proof.Machine

/-- `construct` from any state (R126): every element at its reset value, under the machine's own
parameters. `rng` is "a fresh source (unconstrained)": the draws go on where they stood, so that no byte
drawn later is tied to one drawn before (log entry 2). -/
def construct (s : State) : State := { State.constructed s.params with rng := s.rng }

/-- What `load` returns (R128). -/
inductive LoadStatus where
  /-- The image is in memory. -/
  | ok
  /-- `LOAD_CAPACITY`: the image is longer than 3584 bytes; nothing changed. -/
  | loadCapacity
deriving DecidableEq, Repr

/-- The address of the first image byte (00_scope.md R7). -/
def loadBase : Nat := 0x200

/-- `load(bytes)` (R128): refused on a faulted, started or loaded machine; an image that does not fit is
rejected and changes nothing; else the bytes are copied from 0x200 on. -/
def load (bytes : List Byte) (s : State) : Host.Outcome (State × LoadStatus) Fault Refusal :=
  if s.fault.isSome || s.started || s.loaded then .refused .lateLoad
  else if imageWellFormed bytes then
    .next ({ s.storeBytes loadBase bytes with loaded := true }, .ok)
  else .next (s, .loadCapacity)

/-- The host writes the key cells between operations, and nothing else (R123, R37). -/
def writeKeys (keys : Vector Bool 16) (s : State) : State := { s with keys := keys }

/-- `sound_on = (ST > 0)` (R37). -/
def soundOn (s : State) : Bool := decide (0 < s.st.toNat)

/-- A pixel as the host sees it, for the host's cell width: PIXEL_ON_WORD is all ones, off is 0 (R28,
00_scope.md R8, D15). -/
def hostPixel (width : Nat) (on : Bool) : BitVec width := if on then BitVec.allOnes width else 0

end Sys2Proof.Machine
end

