-- ==== Sys2Proof/Safety.lean ====
section
/-! DEFINITION. Well-formed states (10_state.md R17), safe steps, and the vocabulary of frames in which
claims are stated. -/

namespace Sys2Proof.Machine

/-- A record as 10_state.md R32 says: no word exactly for a fetch fault, and an offending address. -/
def FaultRecord.wellFormed (r : FaultRecord) : Bool :=
  (r.opcode.isNone == (r.kind == .fetchBounds)) && r.addr.isSome

/-- A well-formed state (R17): SP in 0..16, `fault` none or a record as R32 says. The widths are the types'
own. The memory list is in its canonical form (log entry 4). -/
abbrev State.WellFormed (s : State) : Prop :=
  s.sp.toNat ≤ 16 ∧ s.fault.all FaultRecord.wellFormed = true ∧ Memory.wf s.params.font s.mem

/-- The bounds of R22 and R74: no instruction can bring pc above 0x10FE, and no stack entry is above 0x1000. -/
abbrev State.PcBounded (s : State) : Prop :=
  s.pc.toNat ≤ 0x10FE ∧ ∀ k : Fin 16, s.stack[k].toNat ≤ 0x1000

/-- A step is safe when it completes without a fault of the machine (60_exceptions.md R112). -/
def StepSafe (s : State) : Prop := ∃ t, step s = .next t ∧ t.fault = none

/-- Every byte of memory reads as before. -/
def SameMemory (s t : State) : Prop := ∀ a, t.readByte a = s.readByte a

/-- Every byte outside the `count` addresses from `a` on reads as before. -/
def SameMemoryOutside (a count : Nat) (s t : State) : Prop :=
  ∀ b, (b < a ∨ a + count ≤ b) → t.readByte b = s.readByte b

/-- Only general registers differ: memory, I, pc, stack, SP, timers, display, keys and all other state
are as before. -/
def OnlyRegistersChange (s t : State) : Prop := SameMemory s t ∧ t = { s with v := t.v }

/-- Only pc differs. -/
def OnlyPcChanges (s t : State) : Prop := SameMemory s t ∧ t = { s with pc := t.pc }

/-- Only I differs. -/
def OnlyIndexChanges (s t : State) : Prop := SameMemory s t ∧ t = { s with i := t.i }

/-- The fault record the execute stage leaves: the advance undone, the fetched word recorded (R112). -/
def faultOf (s : State) (kind : FaultKind) (addr : Nat) : FaultRecord :=
  { kind := kind, faultPc := s.pc - 2, opcode := some s.currentOpcode, addr := some addr }

/-- The execute stage took a fault: nothing but `fault`, `started` and the advance of pc changed
(R113, R114). -/
def TakesFault (o : Out) (s : State) (kind : FaultKind) (addr : Nat) : Prop :=
  o = .next { s with pc := s.pc - 2, started := true, fault := some (faultOf s kind addr) }

/-- Is `r` a register that the instruction may write (10_state.md R19, and VF as R20 says)? -/
def mayWriteV (i : Instr) (r : Nibble) : Bool :=
  match i with
  | .ldImm x _ | .addImm x _ | .rnd x _ => r == x
  | .ldReg x _ | .orReg x _ | .andReg x _ | .xorReg x _ => r == x
  | .addReg x _ | .sub x _ | .shr x _ | .subn x _ | .shl x _ => r == x || r == 0xF
  | .ldVxDT x | .ldVxK x => r == x
  | .ldVxMem x => r.toNat ≤ x.toNat
  | .drw _ _ _ => r == 0xF
  | .cls | .ret | .jp _ | .call _ | .seImm _ _ | .sneImm _ _ | .seReg _ _ | .sneReg _ _ => false
  | .ldI _ | .jpV0 _ | .skp _ | .sknp _ | .ldDTVx _ | .ldSTVx _ | .addI _ | .ldF _ => false
  | .ldB _ | .ldMemVx _ => false

/-- The instructions that R112 lists as raising a fault of their own. -/
def mayFault (i : Instr) : Bool :=
  match i with
  | .ret | .call _ | .skp _ | .sknp _ | .drw _ _ _ | .ldB _ | .ldMemVx _ | .ldVxMem _ => true
  | .cls | .jp _ | .seImm _ _ | .sneImm _ _ | .seReg _ _ | .ldImm _ _ | .addImm _ _ => false
  | .ldReg _ _ | .orReg _ _ | .andReg _ _ | .xorReg _ _ | .addReg _ _ | .sub _ _ | .shr _ _ => false
  | .subn _ _ | .shl _ _ | .sneReg _ _ | .ldI _ | .jpV0 _ | .rnd _ _ => false
  | .ldVxDT _ | .ldVxK _ | .ldDTVx _ | .ldSTVx _ | .addI _ | .ldF _ => false

/-- Bit (i, j) of the sprite that Dxyn draws is set: bit 7 - j of the byte at I + i (R69, R70). -/
def SpriteBitSet (s : State) (i j : Nat) : Prop :=
  (s.readByte (s.i.toNat + i)).getLsbD (7 - j) = true

/-- Where bit (i, j) of the sprite that Dxyn draws lands: from (V[x] mod 64, V[y] mod 32) (R71, R72). -/
def spriteLanding (s : State) (x y : Nibble) (i j : Nat) : SpriteTarget :=
  spriteTarget s.params.spriteEdge ((s.getV x).toNat % 64) ((s.getV y).toNat % 32) i j

/-- Some set bit of the sprite lands on pixel `t`. -/
def SpriteCovers (s : State) (x y n : Nibble) (t : Nat) : Prop :=
  ∃ i j, i < n.toNat ∧ j < 8 ∧ SpriteBitSet s i j ∧ spriteLanding s x y i j = .pixel t

/-- Dxyn's checks find nothing: the rows are in memory and no set bit lands past the display (R72). -/
def DrawAllowed (s : State) (x y n : Nibble) : Prop :=
  (n.toNat = 0 ∨ s.i.toNat + n.toNat ≤ 0x1000) ∧
  ∀ i j t, i < n.toNat → j < 8 → SpriteBitSet s i j → spriteLanding s x y i j ≠ .out t

end Sys2Proof.Machine
end

