-- ==== Sys2Proof/Certificates/Slice0/Obligations.lean ====
section
/-! DEFINITION. The statements about the machine, from the numbered rules of spec/. -/

open Sys2Proof Sys2Proof.Machine

/-! ### Reset, load, the shape of a step -/

/-- R35: after construction (from any state) and at reset every element holds its reset value. The values of
SP and current_opcode are the spec's decisions D30 and D22. `rng` is unspecified and nothing is said of it. -/
def Obligations.ResetValues : Prop :=
  ∀ c : State, (c = State.reset ∨ ∃ s, c = construct s) →
    (∀ r, c.getV r = 0) ∧ c.i = 0 ∧ c.pc = 0x200 ∧ (∀ k : Fin 16, c.stack[k] = 0) ∧ c.sp = 0 ∧
    c.dt = 0 ∧ c.st = 0 ∧ (∀ t, t < 2048 → pixelOn c.display t = false) ∧
    (∀ k : Fin 16, c.keys[k] = false) ∧ (∀ a, a < 0x050 → c.readByte a = 0) ∧
    (∀ k : Fin 80, c.readByte (0x050 + k) = fontByte c.params.font k) ∧
    (∀ a, 0x0A0 ≤ a → a ≤ 0xFFF → c.readByte a = 0) ∧
    c.currentOpcode = 0 ∧ c.fault = none ∧ c.loaded = false ∧ c.started = false

/-- R128: load is refused late (decision D16), rejects what does not fit, and else copies the image to 0x200
and changes nothing else. -/
def Obligations.LoadCopiesOrRejects : Prop :=
  ∀ (bytes : List Byte) (s : State),
    ((s.fault ≠ none ∨ s.started = true ∨ s.loaded = true) → load bytes s = .refused .lateLoad) ∧
    (s.fault = none → s.started = false → s.loaded = false → 3584 < bytes.length →
      load bytes s = .next (s, .loadCapacity)) ∧
    (s.fault = none → s.started = false → s.loaded = false → bytes.length ≤ 3584 →
      ∃ t, load bytes s = .next (t, .ok) ∧ t.loaded = true ∧
        (∀ k, ∀ h : k < bytes.length, t.readByte (0x200 + k) = bytes[k]) ∧
        SameMemoryOutside 0x200 bytes.length s t ∧ t = { s with mem := t.mem, loaded := true })

/-- R57, R59, R63, R65: a step of the decoded instruction is exec of it in the state with `started` set, the
word current and pc advanced; then the timer stage, unless it faulted, when the word of the step before stays
current (decision D2). -/
def Obligations.StepRunsDecodedInstruction : Prop :=
  ∀ (s s1 : State) (w : Word) (i : Instr), s.fault = none → s.pc.toNat ≤ 0xFFE →
    w = wordOfBytes (s.readByte s.pc.toNat) (s.readByte (s.pc.toNat + 1)) →
    ¬(isAliasedWord w = true ∧ s.params.decodeAlias = .refuse) → decode w = .ok i →
    s1 = { s with started := true, currentOpcode := w, pc := s.pc + 2 } →
    step s =
      match exec i s1 with
      | .next t =>
        if t.fault.isNone then
          .next { t with dt := BitVec.ofNat 8 (t.dt.toNat - 1), st := BitVec.ofNat 8 (t.st.toNat - 1) }
        else .next { t with currentOpcode := s.currentOpcode }
      | .fault f => .fault f
      | .refused r => .refused r

/-- R64: the unassigned words are exactly those listed, and a step on one advances pc by 2 and decrements
the timers, and does nothing else, whatever DECODE_ALIAS is. -/
def Obligations.UnassignedWordIsNoOp : Prop :=
  ∀ w : Word,
    ((∃ why, decode w = .error why) ↔
      (fieldCat w = 0x0 ∧ fieldN w ≠ 0x0 ∧ fieldN w ≠ 0xE) ∨
      (fieldCat w = 0x8 ∧ 0x8 ≤ (fieldN w).toNat ∧ fieldN w ≠ 0xE) ∨
      (fieldCat w = 0xE ∧ fieldN w ≠ 0x1 ∧ fieldN w ≠ 0xE) ∨
      (fieldCat w = 0xF ∧
        fieldKK w ∉ ([0x07, 0x0A, 0x15, 0x18, 0x1E, 0x29, 0x33, 0x55, 0x65] : List Byte))) ∧
    ∀ s : State, (∃ why, decode w = .error why) → s.fault = none → s.pc.toNat ≤ 0xFFE →
      w = wordOfBytes (s.readByte s.pc.toNat) (s.readByte (s.pc.toNat + 1)) →
      step s = .next { s with
        started := true, currentOpcode := w, pc := s.pc + 2,
        dt := BitVec.ofNat 8 (s.dt.toNat - 1), st := BitVec.ofNat 8 (s.st.toNat - 1) }

/-- R58 (decision D4): a fetch at 0xFFF or above reads no byte and faults with the address. -/
def Obligations.FetchPastMemoryFaults : Prop :=
  ∀ s : State, s.fault = none → 0xFFF ≤ s.pc.toNat →
    step s = .next { s with
      started := true,
      fault := some { kind := .fetchBounds, faultPc := s.pc, opcode := none, addr := some s.pc.toNat } }

/-- R115 (decision D2): a faulted machine has no step and no load; construct makes an unfaulted one. -/
def Obligations.FaultedMachineHasNoStep : Prop :=
  ∀ s : State, s.fault ≠ none →
    step s = .refused .machineFaulted ∧ (∀ bytes, load bytes s = .refused .lateLoad) ∧
    (construct s).fault = none

/-- R65: the timer stage decrements each timer once, to 0 at least, in every step that does not fault,
whatever was executed; Fx15 and Fx18 set the value that is decremented. -/
def Obligations.TimersTickOncePerStep : Prop :=
  ∀ (s t : State) (w : Word), step s = .next t → t.fault = none →
    w = wordOfBytes (s.readByte s.pc.toNat) (s.readByte (s.pc.toNat + 1)) →
    (∀ x, decode w = .ok (.ldDTVx x) → t.dt.toNat = (s.getV x).toNat - 1) ∧
    ((∀ x, decode w ≠ .ok (.ldDTVx x)) → t.dt.toNat = s.dt.toNat - 1) ∧
    (∀ x, decode w = .ok (.ldSTVx x) → t.st.toNat = (s.getV x).toNat - 1) ∧
    ((∀ x, decode w ≠ .ok (.ldSTVx x)) → t.st.toNat = s.st.toNat - 1)

/-- The model's placing of a word (log entry 8): the next fetch reads exactly it. -/
def Obligations.PlacedWordIsFetched : Prop :=
  ∀ (s : State) (w : Word), s.pc.toNat ≤ 0xFFE →
    fetchWord (s.withFetchWord 16 w.toNat) = some w ∧
    SameMemoryOutside s.pc.toNat 2 s (s.withFetchWord 16 w.toNat) ∧
    s.withFetchWord 16 w.toNat = { s with mem := (s.withFetchWord 16 w.toNat).mem }

/-! ### Encoding -/

/-- Words of every family, written out from R61's patterns, decode to the instructions they stand for. -/
def Obligations.PatternWordsDecode : Prop :=
  decode 0x00E0 = .ok .cls ∧ decode 0x00EE = .ok .ret ∧ decode 0x1234 = .ok (.jp 0x234) ∧
  decode 0x2FFF = .ok (.call 0xFFF) ∧ decode 0xB300 = .ok (.jpV0 0x300) ∧
  decode 0x3F00 = .ok (.seImm 0xF 0x00) ∧ decode 0x9120 = .ok (.sneReg 1 2) ∧
  decode 0xE39E = .ok (.skp 3) ∧ decode 0xE3A1 = .ok (.sknp 3) ∧
  decode 0x6A2B = .ok (.ldImm 0xA 0x2B) ∧ decode 0x8124 = .ok (.addReg 1 2) ∧
  decode 0x81FE = .ok (.shl 1 0xF) ∧ decode 0xC10F = .ok (.rnd 1 0x0F) ∧
  decode 0xD12F = .ok (.drw 1 2 0xF) ∧ decode 0xA123 = .ok (.ldI 0x123) ∧
  decode 0xF133 = .ok (.ldB 1) ∧ decode 0xFF65 = .ok (.ldVxMem 0xF) ∧
  decode 0xF20A = .ok (.ldVxK 2) ∧ decode 0xF118 = .ok (.ldSTVx 1) ∧
  decode 0x8008 = .error .category8 ∧ decode 0xF000 = .error .categoryF

/-- Every instruction, with every operand at every value, is what the decoder reads from its canonical word,
and that word is no aliased one (R55, R60, R61, R62). -/
def Obligations.DecodeEncodeRoundTrip : Prop :=
  ∀ i : Instr, decode (encode i) = .ok i ∧ isAliasedWord (encode i) = false

/-- A word that is not aliased and selects an instruction is that instruction's canonical word. -/
def Obligations.EncodeDecodeRoundTrip : Prop :=
  ∀ (w : Word) (i : Instr), decode w = .ok i → isAliasedWord w = false → encode i = w

/-- R62 (decision D19): the aliased words are exactly those the rule lists; each selects an instruction
whose canonical word is another; under REFUSE a step on one is refused. -/
def Obligations.AliasedWords : Prop :=
  ∀ w : Word,
    (isAliasedWord w = true ↔
      (fieldCat w = 0x0 ∧ (fieldN w = 0x0 ∨ fieldN w = 0xE) ∧ ¬(fieldX w = 0x0 ∧ fieldY w = 0xE)) ∨
      (fieldCat w = 0x5 ∧ fieldN w ≠ 0x0) ∨ (fieldCat w = 0x9 ∧ fieldN w ≠ 0x0) ∨
      (fieldCat w = 0xE ∧ fieldN w = 0xE ∧ fieldY w ≠ 0x9) ∨
      (fieldCat w = 0xE ∧ fieldN w = 0x1 ∧ fieldY w ≠ 0xA)) ∧
    (isAliasedWord w = true → ∃ i, decode w = .ok i ∧ encode i ≠ w) ∧
    (∀ s : State, isAliasedWord w = true → s.params.decodeAlias = .refuse → s.fault = none →
      s.pc.toNat ≤ 0xFFE → w = wordOfBytes (s.readByte s.pc.toNat) (s.readByte (s.pc.toNat + 1)) →
      step s = .refused .aliasedWord)

/-! ### Whole-machine rules -/

/-- R17: reset is a well-formed state, whatever the parameters, and meets the bounds on pc and the stack. -/
def Obligations.ResetMeetsInvariants : Prop :=
  State.reset.WellFormed ∧ State.reset.PcBounded ∧
  ∀ s : State, (construct s).WellFormed ∧ (construct s).PcBounded

/-- R17: every step from a well-formed state gives a well-formed state (a faulted one among them), or is one
of the spec's own refusals. It never stops with a fault of the model. -/
def Obligations.StepKeepsWellFormed : Prop :=
  ∀ s : State, s.WellFormed →
    (∃ t, step s = .next t ∧ t.WellFormed) ∨
    (s.fault ≠ none ∧ step s = .refused .machineFaulted) ∨
    (s.params.decodeAlias = .refuse ∧ step s = .refused .aliasedWord)

/-- R66: no word is illegal and none traps: a machine with SP at most 16 that has not faulted answers a next
state in every step when DECODE_ALIAS is EXECUTE. A fault of R112 (decision D2) is such a next state. -/
def Obligations.EveryStepCompletes : Prop :=
  ∀ s : State, s.sp.toNat ≤ 16 → s.fault = none → s.params.decodeAlias = .execute →
    ∃ t, step s = .next t

/-- R22, R74 (the spec's derivation): no step brings pc above 0x10FE or a stack entry above 0x1000. -/
def Obligations.StepKeepsPcBounded : Prop :=
  ∀ s t : State, s.PcBounded → step s = .next t → t.PcBounded

/-- R113, R114 (decisions D2, D9): a step that faults changes nothing but `started` and `fault`; the record
names pc0 and the fetched word, none only where the fetch itself faulted. -/
def Obligations.FaultsArePrecise : Prop :=
  ∀ (s t : State) (r : FaultRecord), step s = .next t → t.fault = some r →
    t = { s with started := true, fault := some r } ∧ r.faultPc = s.pc ∧
    ((0xFFF ≤ s.pc.toNat ∧ r.kind = .fetchBounds ∧ r.opcode = none) ∨
     (s.pc.toNat ≤ 0xFFE ∧ r.kind ≠ .fetchBounds ∧
       r.opcode = some (wordOfBytes (s.readByte s.pc.toNat) (s.readByte (s.pc.toNat + 1)))))

/-- R112, last sentence: an instruction that the table of R112 does not list raises no fault. -/
def Obligations.OtherInstructionsNeverFault : Prop :=
  ∀ (i : Instr) (s : State), mayFault i = false → ∃ t, exec i s = .next t ∧ t.fault = s.fault

/-- R19, R20, R23 to R29, R39: which instructions write which state when exec answers a next state. -/
def Obligations.OnlyNamedInstructionsWrite : Prop :=
  ∀ (i : Instr) (s t : State), exec i s = .next t →
    (∀ r, mayWriteV i r = false → t.getV r = s.getV r) ∧
    ((∀ x, i ≠ .ldB x ∧ i ≠ .ldMemVx x) → SameMemory s t) ∧
    ((∀ n x, i ≠ .ldI n ∧ i ≠ .addI x ∧ i ≠ .ldF x) → t.i = s.i) ∧
    ((∀ n, i ≠ .call n) → t.stack = s.stack) ∧
    ((∀ n, i ≠ .call n ∧ i ≠ .ret) → t.sp = s.sp) ∧
    ((∀ x, i ≠ .ldDTVx x) → t.dt = s.dt) ∧ ((∀ x, i ≠ .ldSTVx x) → t.st = s.st) ∧
    ((∀ x y n, i ≠ .cls ∧ i ≠ .drw x y n) → t.display = s.display) ∧
    ((∀ x k, i ≠ .rnd x k) → t.rng = s.rng) ∧
    t.keys = s.keys ∧ t.currentOpcode = s.currentOpcode ∧ t.loaded = s.loaded ∧ t.params = s.params

/-- R29, R33, R8: no step writes the key cells, `loaded` or the parameters; each sets `started`. -/
def Obligations.StepKeepsHostInputs : Prop :=
  ∀ s t : State, step s = .next t →
    t.keys = s.keys ∧ t.loaded = s.loaded ∧ t.params = s.params ∧ t.started = true

/-- Log entry 6 (the model's choice): 2nnn and 00EE with SP above 16, in a state that is not well-formed
(R17), stop with a fault of the model's own. -/
def Obligations.IllFormedStackPointerStops : Prop :=
  ∀ (s : State) (nnn : Addr12), 16 < s.sp.toNat →
    exec (.call nnn) s = .fault .stackPointerRange ∧ exec .ret s = .fault .stackPointerRange

/-! ### Display -/

/-- R68: 00E0 turns every pixel off and changes nothing else. -/
def Obligations.ClsClearsDisplay : Prop :=
  (∀ w, fieldCat w = 0x0 → fieldN w = 0x0 → decode w = .ok .cls) ∧
  ∀ s : State, ∃ t, exec .cls s = .next t ∧ (∀ u, u < 2048 → pixelOn t.display u = false) ∧
    SameMemory s t ∧ t = { s with display := t.display }

/-- R71: where a sprite bit lands under each policy, and that two bits of a sprite never land on one pixel. -/
def Obligations.SpriteTargets : Prop :=
  ∀ xpos ypos i j : Nat, xpos < 64 → ypos < 32 → i < 15 → j < 8 →
    (2047 < (ypos + i) * 64 + (xpos + j) →
      spriteTarget .rawLinearFault xpos ypos i j = .out ((ypos + i) * 64 + (xpos + j))) ∧
    ((ypos + i) * 64 + (xpos + j) ≤ 2047 →
      spriteTarget .rawLinearFault xpos ypos i j = .pixel ((ypos + i) * 64 + (xpos + j))) ∧
    ((63 < xpos + j ∨ 31 < ypos + i) → spriteTarget .clip xpos ypos i j = .nowhere) ∧
    (xpos + j ≤ 63 → ypos + i ≤ 31 →
      spriteTarget .clip xpos ypos i j = .pixel ((ypos + i) * 64 + (xpos + j))) ∧
    spriteTarget .wrap xpos ypos i j = .pixel (((ypos + i) % 32) * 64 + (xpos + j) % 64) ∧
    ∀ (edge : SpriteEdge) (i' j' t : Nat), i' < 15 → j' < 8 →
      spriteTarget edge xpos ypos i j = .pixel t → spriteTarget edge xpos ypos i' j' = .pixel t →
      t < 2048 ∧ i' = i ∧ j' = j

/-- R72: Dxyn, where its checks find nothing, toggles exactly the pixels that set bits land on, sets VF to the
collision over the whole sprite, and changes nothing else. Bit 7 is the leftmost (decision D12). -/
def Obligations.DrawTogglesSprite : Prop :=
  ∀ (s : State) (x y n : Nibble), DrawAllowed s x y n →
    ∃ t, exec (.drw x y n) s = .next t ∧
      (∀ u, u < 2048 →
        (SpriteCovers s x y n u → pixelOn t.display u = !pixelOn s.display u) ∧
        (¬SpriteCovers s x y n u → pixelOn t.display u = pixelOn s.display u)) ∧
      ((∃ u, SpriteCovers s x y n u ∧ pixelOn s.display u = true) → t.getV 0xF = 1) ∧
      ((∀ u, SpriteCovers s x y n u → pixelOn s.display u = false) → t.getV 0xF = 0) ∧
      (∀ r, r ≠ 0xF → t.getV r = s.getV r) ∧ SameMemory s t ∧
      t = { s with v := t.v, display := t.display }

/-- R72, R112 (decisions D3, D8): Dxyn's faults. Rows past memory fault first, with the least such address;
then the first set bit, rows before columns, that lands past the display. -/
def Obligations.DrawFaults : Prop :=
  ∀ (s : State) (x y n : Nibble),
    (0 < n.toNat → 0x1000 < s.i.toNat + n.toNat →
      TakesFault (exec (.drw x y n) s) s .memBounds (max s.i.toNat 0x1000)) ∧
    ∀ i j t, s.i.toNat + n.toNat ≤ 0x1000 → i < n.toNat → j < 8 →
      SpriteBitSet s i j → spriteLanding s x y i j = .out t →
      (∀ i' j' t', j' < 8 → (i' < i ∨ (i' = i ∧ j' < j)) → SpriteBitSet s i' j' →
        spriteLanding s x y i' j' ≠ .out t') →
      TakesFault (exec (.drw x y n) s) s .displayBounds t

/-- R72: drawing one sprite twice at one place restores the display (x and y are not VF: the first draw writes
VF, so the second may start elsewhere). The second draw reports a collision
exactly when the sprite covers a pixel that was off before the first: R72's pseudocode gives this, where its
corner case speaks of any drawn bit (log entry 10). -/
def Obligations.DrawTwiceRestoresDisplay : Prop :=
  ∀ (s : State) (x y n : Nibble), x ≠ 0xF → y ≠ 0xF → DrawAllowed s x y n →
    ∃ t u, exec (.drw x y n) s = .next t ∧ exec (.drw x y n) t = .next u ∧
      u.display = s.display ∧
      ((∃ p, SpriteCovers s x y n p ∧ pixelOn s.display p = false) → u.getV 0xF = 1) ∧
      ((∀ p, SpriteCovers s x y n p → pixelOn s.display p = true) → u.getV 0xF = 0)

/-! ### Control flow -/

/-- R75: 1nnn sets pc to nnn and changes nothing else. -/
def Obligations.JumpSetsPc : Prop :=
  (∀ w, fieldCat w = 0x1 → decode w = .ok (.jp (fieldNNN w))) ∧
  ∀ (s : State) (nnn : Addr12), ∃ t, exec (.jp nnn) s = .next t ∧ t.pc.toNat = nnn.toNat ∧
    OnlyPcChanges s t

/-- R77: Bnnn sets pc to nnn + V[0], without wrap, whatever its x field, and changes nothing else. -/
def Obligations.JumpV0SetsPc : Prop :=
  (∀ w, fieldCat w = 0xB → decode w = .ok (.jpV0 (fieldNNN w))) ∧
  ∀ (s : State) (nnn : Addr12), ∃ t, exec (.jpV0 nnn) s = .next t ∧
    t.pc.toNat = nnn.toNat + (s.getV 0).toNat ∧ OnlyPcChanges s t

/-- R76 (decision D5): 2nnn pushes the advanced pc and jumps; at SP = 16 it takes STACK_OVERFLOW. -/
def Obligations.CallPushesAndJumps : Prop :=
  (∀ w, fieldCat w = 0x2 → decode w = .ok (.call (fieldNNN w))) ∧
  ∀ (s : State) (nnn : Addr12),
    (∀ h : s.sp.toNat < 16, ∃ t, exec (.call nnn) s = .next t ∧ t.stack[s.sp.toNat] = s.pc ∧
      (∀ k : Fin 16, k.val ≠ s.sp.toNat → t.stack[k] = s.stack[k]) ∧
      t.sp.toNat = s.sp.toNat + 1 ∧ t.pc.toNat = nnn.toNat ∧ SameMemory s t ∧
      t = { s with stack := t.stack, sp := t.sp, pc := t.pc }) ∧
    (s.sp.toNat = 16 → TakesFault (exec (.call nnn) s) s .stackOverflow 16)

/-- R74 (decision D6): 00EE pops the most recent entry into pc and clears none; at SP = 0 it takes
STACK_UNDERFLOW. -/
def Obligations.RetPopsPc : Prop :=
  (∀ w, fieldCat w = 0x0 → fieldN w = 0xE → decode w = .ok .ret) ∧
  ∀ s : State,
    (∀ _h : 0 < s.sp.toNat, ∀ h : s.sp.toNat ≤ 16, ∃ t, exec .ret s = .next t ∧
      t.sp.toNat = s.sp.toNat - 1 ∧ t.pc = s.stack[s.sp.toNat - 1] ∧ SameMemory s t ∧
      t = { s with sp := t.sp, pc := t.pc }) ∧
    (s.sp.toNat = 0 → TakesFault (exec .ret s) s .stackUnderflow 0)

/-- R74, §8 of the source: 00EE after 2nnn restores pc to the instruction after the call, and the stack
pointer. -/
def Obligations.ReturnUndoesCall : Prop :=
  ∀ (s : State) (nnn : Addr12), s.sp.toNat < 16 →
    ∃ t u, exec (.call nnn) s = .next t ∧ exec .ret t = .next u ∧ u.pc = s.pc ∧ u.sp = s.sp

/-! ### Skips -/

/-- R79 to R82: the four register skips add 2 to the advanced pc when their condition holds, leave it
otherwise, and change nothing else. -/
def Obligations.RegisterSkips : Prop :=
  (∀ w, (fieldCat w = 0x3 → decode w = .ok (.seImm (fieldX w) (fieldKK w))) ∧
    (fieldCat w = 0x4 → decode w = .ok (.sneImm (fieldX w) (fieldKK w))) ∧
    (fieldCat w = 0x5 → decode w = .ok (.seReg (fieldX w) (fieldY w))) ∧
    (fieldCat w = 0x9 → decode w = .ok (.sneReg (fieldX w) (fieldY w)))) ∧
  ∀ (s : State) (x y : Nibble) (kk : Byte),
    (∃ t, exec (.seImm x kk) s = .next t ∧ OnlyPcChanges s t ∧
      (s.getV x = kk → t.pc = s.pc + 2) ∧ (s.getV x ≠ kk → t.pc = s.pc)) ∧
    (∃ t, exec (.sneImm x kk) s = .next t ∧ OnlyPcChanges s t ∧
      (s.getV x ≠ kk → t.pc = s.pc + 2) ∧ (s.getV x = kk → t.pc = s.pc)) ∧
    (∃ t, exec (.seReg x y) s = .next t ∧ OnlyPcChanges s t ∧
      (s.getV x = s.getV y → t.pc = s.pc + 2) ∧ (s.getV x ≠ s.getV y → t.pc = s.pc)) ∧
    (∃ t, exec (.sneReg x y) s = .next t ∧ OnlyPcChanges s t ∧
      (s.getV x ≠ s.getV y → t.pc = s.pc + 2) ∧ (s.getV x = s.getV y → t.pc = s.pc))

/-- R83, R84, R85 (decision D7): the key skips read the cell V[x] numbers; a number above 0xF takes
KEY_INDEX. -/
def Obligations.KeySkips : Prop :=
  (∀ w, fieldCat w = 0xE → (fieldN w = 0xE → decode w = .ok (.skp (fieldX w))) ∧
    (fieldN w = 0x1 → decode w = .ok (.sknp (fieldX w)))) ∧
  ∀ (s : State) (x : Nibble),
    (∀ h : (s.getV x).toNat < 16,
      (∃ t, exec (.skp x) s = .next t ∧ OnlyPcChanges s t ∧
        (s.keys[(s.getV x).toNat] = true → t.pc = s.pc + 2) ∧
        (s.keys[(s.getV x).toNat] = false → t.pc = s.pc)) ∧
      (∃ t, exec (.sknp x) s = .next t ∧ OnlyPcChanges s t ∧
        (s.keys[(s.getV x).toNat] = false → t.pc = s.pc + 2) ∧
        (s.keys[(s.getV x).toNat] = true → t.pc = s.pc))) ∧
    (0xF < (s.getV x).toNat →
      TakesFault (exec (.skp x) s) s .keyIndex (s.getV x).toNat ∧
      TakesFault (exec (.sknp x) s) s .keyIndex (s.getV x).toNat)

/-! ### Arithmetic and logic -/

/-- R88, R89, R90: the loads of V[x] and the flagless add. -/
def Obligations.LoadsAndFlaglessAdd : Prop :=
  (∀ w, (fieldCat w = 0x6 → decode w = .ok (.ldImm (fieldX w) (fieldKK w))) ∧
    (fieldCat w = 0x7 → decode w = .ok (.addImm (fieldX w) (fieldKK w))) ∧
    (fieldCat w = 0x8 → fieldN w = 0x0 → decode w = .ok (.ldReg (fieldX w) (fieldY w)))) ∧
  ∀ (s : State) (x y : Nibble) (kk : Byte),
    (∃ t, exec (.ldImm x kk) s = .next t ∧ t.getV x = kk ∧
      (∀ r, r ≠ x → t.getV r = s.getV r) ∧ OnlyRegistersChange s t) ∧
    (∃ t, exec (.addImm x kk) s = .next t ∧ (t.getV x).toNat = ((s.getV x).toNat + kk.toNat) % 256 ∧
      (∀ r, r ≠ x → t.getV r = s.getV r) ∧ OnlyRegistersChange s t) ∧
    (∃ t, exec (.ldReg x y) s = .next t ∧ t.getV x = s.getV y ∧
      (∀ r, r ≠ x → t.getV r = s.getV r) ∧ OnlyRegistersChange s t)

/-- R91, R92, R93: bitwise or, and, xor into V[x], with no flag. -/
def Obligations.BitwiseLogic : Prop :=
  (∀ w, fieldCat w = 0x8 →
    (fieldN w = 0x1 → decode w = .ok (.orReg (fieldX w) (fieldY w))) ∧
    (fieldN w = 0x2 → decode w = .ok (.andReg (fieldX w) (fieldY w))) ∧
    (fieldN w = 0x3 → decode w = .ok (.xorReg (fieldX w) (fieldY w)))) ∧
  ∀ (s : State) (x y : Nibble),
    (∃ t, exec (.orReg x y) s = .next t ∧
      (∀ k, (t.getV x).getLsbD k = ((s.getV x).getLsbD k || (s.getV y).getLsbD k)) ∧
      (∀ r, r ≠ x → t.getV r = s.getV r) ∧ OnlyRegistersChange s t) ∧
    (∃ t, exec (.andReg x y) s = .next t ∧
      (∀ k, (t.getV x).getLsbD k = ((s.getV x).getLsbD k && (s.getV y).getLsbD k)) ∧
      (∀ r, r ≠ x → t.getV r = s.getV r) ∧ OnlyRegistersChange s t) ∧
    (∃ t, exec (.xorReg x y) s = .next t ∧
      (∀ k, (t.getV x).getLsbD k = ((s.getV x).getLsbD k != (s.getV y).getLsbD k)) ∧
      (∀ r, r ≠ x → t.getV r = s.getV r) ∧ OnlyRegistersChange s t)

/-- R94: 8xy4 adds modulo 256 from the operands before the instruction; VF gets the carry, unless x is 0xF,
where the sum overwrites it. -/
def Obligations.AddSetsCarry : Prop :=
  (∀ w, fieldCat w = 0x8 → fieldN w = 0x4 → decode w = .ok (.addReg (fieldX w) (fieldY w))) ∧
  ∀ (s : State) (x y : Nibble), ∃ t, exec (.addReg x y) s = .next t ∧
    (t.getV x).toNat = ((s.getV x).toNat + (s.getV y).toNat) % 256 ∧
    (x ≠ 0xF → t.getV 0xF = if 255 < (s.getV x).toNat + (s.getV y).toNat then 1 else 0) ∧
    (∀ r, r ≠ x → r ≠ 0xF → t.getV r = s.getV r) ∧ OnlyRegistersChange s t

/-- R95, R96: 8xy5 and 8xy7 write the NOT-borrow flag f first, by a strict comparison of the operands before
the instruction, and then subtract modulo 256 the registers as they stand: an operand that is VF is f. -/
def Obligations.SubtractsSetNotBorrow : Prop :=
  (∀ w, fieldCat w = 0x8 → (fieldN w = 0x5 → decode w = .ok (.sub (fieldX w) (fieldY w))) ∧
    (fieldN w = 0x7 → decode w = .ok (.subn (fieldX w) (fieldY w)))) ∧
  ∀ (s : State) (x y : Nibble) (f : Byte),
    (f = (if (s.getV y).toNat < (s.getV x).toNat then 1 else 0) →
      ∃ t, exec (.sub x y) s = .next t ∧
        (t.getV x).toNat = (256 + (if x = 0xF then f else s.getV x).toNat
          - (if y = 0xF then f else s.getV y).toNat) % 256 ∧
        (x ≠ 0xF → t.getV 0xF = f) ∧
        (∀ r, r ≠ x → r ≠ 0xF → t.getV r = s.getV r) ∧ OnlyRegistersChange s t) ∧
    (f = (if (s.getV x).toNat < (s.getV y).toNat then 1 else 0) →
      ∃ t, exec (.subn x y) s = .next t ∧
        (t.getV x).toNat = (256 + (if y = 0xF then f else s.getV y).toNat
          - (if x = 0xF then f else s.getV x).toNat) % 256 ∧
        (x ≠ 0xF → t.getV 0xF = f) ∧
        (∀ r, r ≠ x → r ≠ 0xF → t.getV r = s.getV r) ∧ OnlyRegistersChange s t)

/-- R97, R98: the shifts are by one bit, of V[x] whatever y is; VF gets the bit shifted out, and is then
shifted itself when x is 0xF. -/
def Obligations.ShiftsSetShiftedOutBit : Prop :=
  (∀ w, fieldCat w = 0x8 → (fieldN w = 0x6 → decode w = .ok (.shr (fieldX w) (fieldY w))) ∧
    (fieldN w = 0xE → decode w = .ok (.shl (fieldX w) (fieldY w)))) ∧
  ∀ (s : State) (x y : Nibble),
    (∃ t, exec (.shr x y) s = .next t ∧
      (x ≠ 0xF → (t.getV x).toNat = (s.getV x).toNat / 2 ∧
        (t.getV 0xF).toNat = (s.getV x).toNat % 2) ∧
      (x = 0xF → t.getV 0xF = 0) ∧
      (∀ r, r ≠ x → r ≠ 0xF → t.getV r = s.getV r) ∧ OnlyRegistersChange s t) ∧
    (∃ t, exec (.shl x y) s = .next t ∧
      (x ≠ 0xF → (t.getV x).toNat = (s.getV x).toNat * 2 % 256 ∧
        (t.getV 0xF).toNat = (s.getV x).toNat / 128) ∧
      (x = 0xF → (t.getV 0xF).toNat = 2 * ((s.getV 0xF).toNat / 128)) ∧
      (∀ r, r ≠ x → r ≠ 0xF → t.getV r = s.getV r) ∧ OnlyRegistersChange s t)

/-- R87 (the spec's derivation): the arithmetic rows of the table of results with VF as an operand. -/
def Obligations.FlagRegisterAsOperand : Prop :=
  ∀ (s : State) (r : Nibble) (vf vr : Nat), r ≠ 0xF → vf = (s.getV 0xF).toNat → vr = (s.getV r).toNat →
    (∃ t, exec (.addReg 0xF r) s = .next t ∧ (t.getV 0xF).toNat = (vf + vr) % 256) ∧
    (∃ t, exec (.addReg r 0xF) s = .next t ∧ (t.getV r).toNat = (vr + vf) % 256 ∧
      (t.getV 0xF).toNat = if 255 < vr + vf then 1 else 0) ∧
    (∃ t, exec (.addReg 0xF 0xF) s = .next t ∧ (t.getV 0xF).toNat = 2 * vf % 256) ∧
    (∃ t, exec (.sub 0xF r) s = .next t ∧
      (t.getV 0xF).toNat = (256 + (if vr < vf then 1 else 0) - vr) % 256) ∧
    (∃ t, exec (.sub r 0xF) s = .next t ∧ (t.getV 0xF).toNat = (if vf < vr then 1 else 0) ∧
      (t.getV r).toNat = (256 + vr - (if vf < vr then 1 else 0)) % 256) ∧
    (∃ t, exec (.sub 0xF 0xF) s = .next t ∧ t.getV 0xF = 0) ∧
    (∃ t, exec (.subn 0xF r) s = .next t ∧
      (t.getV 0xF).toNat = (256 + vr - (if vf < vr then 1 else 0)) % 256) ∧
    (∃ t, exec (.subn r 0xF) s = .next t ∧ (t.getV 0xF).toNat = (if vr < vf then 1 else 0) ∧
      (t.getV r).toNat = (256 + (if vr < vf then 1 else 0) - vr) % 256) ∧
    (∃ t, exec (.subn 0xF 0xF) s = .next t ∧ t.getV 0xF = 0)

/-- R99 (decision D13, log entry 2): Cxkk stores the drawn byte ANDed with kk and uses up one draw. The byte is
a free value: the statement holds whatever it is. -/
def Obligations.RandomByteIsMasked : Prop :=
  (∀ w, fieldCat w = 0xC → decode w = .ok (.rnd (fieldX w) (fieldKK w))) ∧
  ∀ (s : State) (x : Nibble) (kk : Byte), ∃ t, exec (.rnd x kk) s = .next t ∧
    t.getV x = Config.draw s.rng &&& kk ∧ (∀ k, kk.getLsbD k = false → (t.getV x).getLsbD k = false) ∧
    (∀ r, r ≠ x → t.getV r = s.getV r) ∧ t.rng = s.rng + 1 ∧ SameMemory s t ∧
    t = { s with v := t.v, rng := t.rng }

/-! ### Index register and memory -/

/-- R101, R102, R103: the three writers of I. Fx1E wraps modulo 65536 with no flag; Fx29 uses the whole byte
(conflict C2). -/
def Obligations.IndexRegisterWriters : Prop :=
  (∀ w, (fieldCat w = 0xA → decode w = .ok (.ldI (fieldNNN w))) ∧
    (fieldCat w = 0xF → fieldKK w = 0x1E → decode w = .ok (.addI (fieldX w))) ∧
    (fieldCat w = 0xF → fieldKK w = 0x29 → decode w = .ok (.ldF (fieldX w)))) ∧
  ∀ (s : State) (nnn : Addr12) (x : Nibble),
    (∃ t, exec (.ldI nnn) s = .next t ∧ t.i.toNat = nnn.toNat ∧ OnlyIndexChanges s t) ∧
    (∃ t, exec (.addI x) s = .next t ∧ t.i.toNat = (s.i.toNat + (s.getV x).toNat) % 65536 ∧
      OnlyIndexChanges s t) ∧
    (∃ t, exec (.ldF x) s = .next t ∧ t.i.toNat = 0x050 + 5 * (s.getV x).toNat ∧ OnlyIndexChanges s t)

/-- R104 (decisions D3, D9): Fx33 stores the three decimal digits of V[x] at I, or takes MEM_BOUNDS and
stores nothing. -/
def Obligations.DecimalStore : Prop :=
  (∀ w, fieldCat w = 0xF → fieldKK w = 0x33 → decode w = .ok (.ldB (fieldX w))) ∧
  ∀ (s : State) (x : Nibble),
    (s.i.toNat + 2 ≤ 0xFFF → ∃ t, exec (.ldB x) s = .next t ∧
      (t.readByte s.i.toNat).toNat = (s.getV x).toNat / 100 ∧
      (t.readByte (s.i.toNat + 1)).toNat = (s.getV x).toNat / 10 % 10 ∧
      (t.readByte (s.i.toNat + 2)).toNat = (s.getV x).toNat % 10 ∧
      SameMemoryOutside s.i.toNat 3 s t ∧ t = { s with mem := t.mem }) ∧
    (0xFFF < s.i.toNat + 2 → TakesFault (exec (.ldB x) s) s .memBounds (max s.i.toNat 0x1000))

/-- R105 (decisions D3, D9): Fx55 stores V[0]..V[x] at I..I+x and leaves I, or takes MEM_BOUNDS and stores
nothing. -/
def Obligations.RegisterStore : Prop :=
  (∀ w, fieldCat w = 0xF → fieldKK w = 0x55 → decode w = .ok (.ldMemVx (fieldX w))) ∧
  ∀ (s : State) (x : Nibble),
    (s.i.toNat + x.toNat ≤ 0xFFF → ∃ t, exec (.ldMemVx x) s = .next t ∧
      (∀ r : Nibble, r.toNat ≤ x.toNat → t.readByte (s.i.toNat + r.toNat) = s.getV r) ∧
      SameMemoryOutside s.i.toNat (x.toNat + 1) s t ∧ t = { s with mem := t.mem }) ∧
    (0xFFF < s.i.toNat + x.toNat →
      TakesFault (exec (.ldMemVx x) s) s .memBounds (max s.i.toNat 0x1000))

/-- R106 (decisions D3, D9): Fx65 loads V[0]..V[x] from I..I+x and leaves I and the other registers, or takes
MEM_BOUNDS and loads nothing. -/
def Obligations.RegisterLoad : Prop :=
  (∀ w, fieldCat w = 0xF → fieldKK w = 0x65 → decode w = .ok (.ldVxMem (fieldX w))) ∧
  ∀ (s : State) (x : Nibble),
    (s.i.toNat + x.toNat ≤ 0xFFF → ∃ t, exec (.ldVxMem x) s = .next t ∧
      (∀ r : Nibble, r.toNat ≤ x.toNat → t.getV r = s.readByte (s.i.toNat + r.toNat)) ∧
      (∀ r : Nibble, x.toNat < r.toNat → t.getV r = s.getV r) ∧ OnlyRegistersChange s t) ∧
    (0xFFF < s.i.toNat + x.toNat →
      TakesFault (exec (.ldVxMem x) s) s .memBounds (max s.i.toNat 0x1000))

/-- R106, §8 of the source: Fx55 then Fx65 with the same x and I restores V[0]..V[x], whatever happened to
the registers between. -/
def Obligations.StoreThenLoadRestoresRegisters : Prop :=
  ∀ (s : State) (x : Nibble) (v : Vector Byte 16), s.i.toNat + x.toNat ≤ 0xFFF →
    ∃ t u, exec (.ldMemVx x) s = .next t ∧ exec (.ldVxMem x) { t with v := v } = .next u ∧
      (∀ r : Nibble, r.toNat ≤ x.toNat → u.getV r = s.getV r) ∧ u.i = s.i

/-! ### Timers and keys -/

/-- R107, R108, R109: the moves between V[x] and the timers, in the execute stage. -/
def Obligations.TimerMoves : Prop :=
  (∀ w, fieldCat w = 0xF → (fieldKK w = 0x07 → decode w = .ok (.ldVxDT (fieldX w))) ∧
    (fieldKK w = 0x15 → decode w = .ok (.ldDTVx (fieldX w))) ∧
    (fieldKK w = 0x18 → decode w = .ok (.ldSTVx (fieldX w)))) ∧
  ∀ (s : State) (x : Nibble),
    (∃ t, exec (.ldVxDT x) s = .next t ∧ t.getV x = s.dt ∧ (∀ r, r ≠ x → t.getV r = s.getV r) ∧
      OnlyRegistersChange s t) ∧
    (∃ t, exec (.ldDTVx x) s = .next t ∧ t.dt = s.getV x ∧ SameMemory s t ∧ t = { s with dt := t.dt }) ∧
    (∃ t, exec (.ldSTVx x) s = .next t ∧ t.st = s.getV x ∧ SameMemory s t ∧ t = { s with st := t.st })

/-- R110: Fx0A gives V[x] the lowest pressed key, or moves pc back by 2 and writes no register. -/
def Obligations.KeyWait : Prop :=
  (∀ w, fieldCat w = 0xF → fieldKK w = 0x0A → decode w = .ok (.ldVxK (fieldX w))) ∧
  ∀ (s : State) (x : Nibble),
    (∀ k : Fin 16, s.keys[k] = true → (∀ j : Fin 16, j < k → s.keys[j] = false) →
      ∃ t, exec (.ldVxK x) s = .next t ∧ (t.getV x).toNat = k.val ∧
        (∀ r, r ≠ x → t.getV r = s.getV r) ∧ OnlyRegistersChange s t) ∧
    ((∀ k : Fin 16, s.keys[k] = false) →
      ∃ t, exec (.ldVxK x) s = .next t ∧ t.pc = s.pc - 2 ∧ OnlyPcChanges s t)
end

