-- ==== Sys2Proof/Laws/State.lean ====
section
/-! SUPPORT. One lemma per field per update of the state, each true by rfl, so that no proof unfolds a
record update; and what reading a register or a byte gives after each. -/

namespace Sys2Proof.Machine

variable (s : State)

/-! ### State.setV -/

@[simp] theorem State.setV_mem (r : Nibble) (b : Byte) : (s.setV r b).mem = s.mem := rfl
@[simp] theorem State.setV_v (r : Nibble) (b : Byte) : (s.setV r b).v = s.v.set r.toNat b r.isLt := rfl
@[simp] theorem State.setV_i (r : Nibble) (b : Byte) : (s.setV r b).i = s.i := rfl
@[simp] theorem State.setV_pc (r : Nibble) (b : Byte) : (s.setV r b).pc = s.pc := rfl
@[simp] theorem State.setV_stack (r : Nibble) (b : Byte) : (s.setV r b).stack = s.stack := rfl
@[simp] theorem State.setV_sp (r : Nibble) (b : Byte) : (s.setV r b).sp = s.sp := rfl
@[simp] theorem State.setV_dt (r : Nibble) (b : Byte) : (s.setV r b).dt = s.dt := rfl
@[simp] theorem State.setV_st (r : Nibble) (b : Byte) : (s.setV r b).st = s.st := rfl
@[simp] theorem State.setV_display (r : Nibble) (b : Byte) : (s.setV r b).display = s.display := rfl
@[simp] theorem State.setV_keys (r : Nibble) (b : Byte) : (s.setV r b).keys = s.keys := rfl
@[simp] theorem State.setV_currentOpcode (r : Nibble) (b : Byte) : (s.setV r b).currentOpcode = s.currentOpcode := rfl
@[simp] theorem State.setV_rng (r : Nibble) (b : Byte) : (s.setV r b).rng = s.rng := rfl
@[simp] theorem State.setV_fault (r : Nibble) (b : Byte) : (s.setV r b).fault = s.fault := rfl
@[simp] theorem State.setV_loaded (r : Nibble) (b : Byte) : (s.setV r b).loaded = s.loaded := rfl
@[simp] theorem State.setV_started (r : Nibble) (b : Byte) : (s.setV r b).started = s.started := rfl
@[simp] theorem State.setV_params (r : Nibble) (b : Byte) : (s.setV r b).params = s.params := rfl

/-! ### State.setVF -/

@[simp] theorem State.setVF_mem (b : Byte) : (s.setVF b).mem = s.mem := rfl
@[simp] theorem State.setVF_v (b : Byte) : (s.setVF b).v = s.v.set 15 b := rfl
@[simp] theorem State.setVF_i (b : Byte) : (s.setVF b).i = s.i := rfl
@[simp] theorem State.setVF_pc (b : Byte) : (s.setVF b).pc = s.pc := rfl
@[simp] theorem State.setVF_stack (b : Byte) : (s.setVF b).stack = s.stack := rfl
@[simp] theorem State.setVF_sp (b : Byte) : (s.setVF b).sp = s.sp := rfl
@[simp] theorem State.setVF_dt (b : Byte) : (s.setVF b).dt = s.dt := rfl
@[simp] theorem State.setVF_st (b : Byte) : (s.setVF b).st = s.st := rfl
@[simp] theorem State.setVF_display (b : Byte) : (s.setVF b).display = s.display := rfl
@[simp] theorem State.setVF_keys (b : Byte) : (s.setVF b).keys = s.keys := rfl
@[simp] theorem State.setVF_currentOpcode (b : Byte) : (s.setVF b).currentOpcode = s.currentOpcode := rfl
@[simp] theorem State.setVF_rng (b : Byte) : (s.setVF b).rng = s.rng := rfl
@[simp] theorem State.setVF_fault (b : Byte) : (s.setVF b).fault = s.fault := rfl
@[simp] theorem State.setVF_loaded (b : Byte) : (s.setVF b).loaded = s.loaded := rfl
@[simp] theorem State.setVF_started (b : Byte) : (s.setVF b).started = s.started := rfl
@[simp] theorem State.setVF_params (b : Byte) : (s.setVF b).params = s.params := rfl

/-! ### State.setI -/

@[simp] theorem State.setI_mem (w : Word) : (s.setI w).mem = s.mem := rfl
@[simp] theorem State.setI_v (w : Word) : (s.setI w).v = s.v := rfl
@[simp] theorem State.setI_i (w : Word) : (s.setI w).i = w := rfl
@[simp] theorem State.setI_pc (w : Word) : (s.setI w).pc = s.pc := rfl
@[simp] theorem State.setI_stack (w : Word) : (s.setI w).stack = s.stack := rfl
@[simp] theorem State.setI_sp (w : Word) : (s.setI w).sp = s.sp := rfl
@[simp] theorem State.setI_dt (w : Word) : (s.setI w).dt = s.dt := rfl
@[simp] theorem State.setI_st (w : Word) : (s.setI w).st = s.st := rfl
@[simp] theorem State.setI_display (w : Word) : (s.setI w).display = s.display := rfl
@[simp] theorem State.setI_keys (w : Word) : (s.setI w).keys = s.keys := rfl
@[simp] theorem State.setI_currentOpcode (w : Word) : (s.setI w).currentOpcode = s.currentOpcode := rfl
@[simp] theorem State.setI_rng (w : Word) : (s.setI w).rng = s.rng := rfl
@[simp] theorem State.setI_fault (w : Word) : (s.setI w).fault = s.fault := rfl
@[simp] theorem State.setI_loaded (w : Word) : (s.setI w).loaded = s.loaded := rfl
@[simp] theorem State.setI_started (w : Word) : (s.setI w).started = s.started := rfl
@[simp] theorem State.setI_params (w : Word) : (s.setI w).params = s.params := rfl

/-! ### State.setPc -/

@[simp] theorem State.setPc_mem (w : Word) : (s.setPc w).mem = s.mem := rfl
@[simp] theorem State.setPc_v (w : Word) : (s.setPc w).v = s.v := rfl
@[simp] theorem State.setPc_i (w : Word) : (s.setPc w).i = s.i := rfl
@[simp] theorem State.setPc_pc (w : Word) : (s.setPc w).pc = w := rfl
@[simp] theorem State.setPc_stack (w : Word) : (s.setPc w).stack = s.stack := rfl
@[simp] theorem State.setPc_sp (w : Word) : (s.setPc w).sp = s.sp := rfl
@[simp] theorem State.setPc_dt (w : Word) : (s.setPc w).dt = s.dt := rfl
@[simp] theorem State.setPc_st (w : Word) : (s.setPc w).st = s.st := rfl
@[simp] theorem State.setPc_display (w : Word) : (s.setPc w).display = s.display := rfl
@[simp] theorem State.setPc_keys (w : Word) : (s.setPc w).keys = s.keys := rfl
@[simp] theorem State.setPc_currentOpcode (w : Word) : (s.setPc w).currentOpcode = s.currentOpcode := rfl
@[simp] theorem State.setPc_rng (w : Word) : (s.setPc w).rng = s.rng := rfl
@[simp] theorem State.setPc_fault (w : Word) : (s.setPc w).fault = s.fault := rfl
@[simp] theorem State.setPc_loaded (w : Word) : (s.setPc w).loaded = s.loaded := rfl
@[simp] theorem State.setPc_started (w : Word) : (s.setPc w).started = s.started := rfl
@[simp] theorem State.setPc_params (w : Word) : (s.setPc w).params = s.params := rfl

/-! ### State.setDT -/

@[simp] theorem State.setDT_mem (b : Byte) : (s.setDT b).mem = s.mem := rfl
@[simp] theorem State.setDT_v (b : Byte) : (s.setDT b).v = s.v := rfl
@[simp] theorem State.setDT_i (b : Byte) : (s.setDT b).i = s.i := rfl
@[simp] theorem State.setDT_pc (b : Byte) : (s.setDT b).pc = s.pc := rfl
@[simp] theorem State.setDT_stack (b : Byte) : (s.setDT b).stack = s.stack := rfl
@[simp] theorem State.setDT_sp (b : Byte) : (s.setDT b).sp = s.sp := rfl
@[simp] theorem State.setDT_dt (b : Byte) : (s.setDT b).dt = b := rfl
@[simp] theorem State.setDT_st (b : Byte) : (s.setDT b).st = s.st := rfl
@[simp] theorem State.setDT_display (b : Byte) : (s.setDT b).display = s.display := rfl
@[simp] theorem State.setDT_keys (b : Byte) : (s.setDT b).keys = s.keys := rfl
@[simp] theorem State.setDT_currentOpcode (b : Byte) : (s.setDT b).currentOpcode = s.currentOpcode := rfl
@[simp] theorem State.setDT_rng (b : Byte) : (s.setDT b).rng = s.rng := rfl
@[simp] theorem State.setDT_fault (b : Byte) : (s.setDT b).fault = s.fault := rfl
@[simp] theorem State.setDT_loaded (b : Byte) : (s.setDT b).loaded = s.loaded := rfl
@[simp] theorem State.setDT_started (b : Byte) : (s.setDT b).started = s.started := rfl
@[simp] theorem State.setDT_params (b : Byte) : (s.setDT b).params = s.params := rfl

/-! ### State.setST -/

@[simp] theorem State.setST_mem (b : Byte) : (s.setST b).mem = s.mem := rfl
@[simp] theorem State.setST_v (b : Byte) : (s.setST b).v = s.v := rfl
@[simp] theorem State.setST_i (b : Byte) : (s.setST b).i = s.i := rfl
@[simp] theorem State.setST_pc (b : Byte) : (s.setST b).pc = s.pc := rfl
@[simp] theorem State.setST_stack (b : Byte) : (s.setST b).stack = s.stack := rfl
@[simp] theorem State.setST_sp (b : Byte) : (s.setST b).sp = s.sp := rfl
@[simp] theorem State.setST_dt (b : Byte) : (s.setST b).dt = s.dt := rfl
@[simp] theorem State.setST_st (b : Byte) : (s.setST b).st = b := rfl
@[simp] theorem State.setST_display (b : Byte) : (s.setST b).display = s.display := rfl
@[simp] theorem State.setST_keys (b : Byte) : (s.setST b).keys = s.keys := rfl
@[simp] theorem State.setST_currentOpcode (b : Byte) : (s.setST b).currentOpcode = s.currentOpcode := rfl
@[simp] theorem State.setST_rng (b : Byte) : (s.setST b).rng = s.rng := rfl
@[simp] theorem State.setST_fault (b : Byte) : (s.setST b).fault = s.fault := rfl
@[simp] theorem State.setST_loaded (b : Byte) : (s.setST b).loaded = s.loaded := rfl
@[simp] theorem State.setST_started (b : Byte) : (s.setST b).started = s.started := rfl
@[simp] theorem State.setST_params (b : Byte) : (s.setST b).params = s.params := rfl

/-! ### State.setDisplay -/

@[simp] theorem State.setDisplay_mem (d : Display) : (s.setDisplay d).mem = s.mem := rfl
@[simp] theorem State.setDisplay_v (d : Display) : (s.setDisplay d).v = s.v := rfl
@[simp] theorem State.setDisplay_i (d : Display) : (s.setDisplay d).i = s.i := rfl
@[simp] theorem State.setDisplay_pc (d : Display) : (s.setDisplay d).pc = s.pc := rfl
@[simp] theorem State.setDisplay_stack (d : Display) : (s.setDisplay d).stack = s.stack := rfl
@[simp] theorem State.setDisplay_sp (d : Display) : (s.setDisplay d).sp = s.sp := rfl
@[simp] theorem State.setDisplay_dt (d : Display) : (s.setDisplay d).dt = s.dt := rfl
@[simp] theorem State.setDisplay_st (d : Display) : (s.setDisplay d).st = s.st := rfl
@[simp] theorem State.setDisplay_display (d : Display) : (s.setDisplay d).display = d := rfl
@[simp] theorem State.setDisplay_keys (d : Display) : (s.setDisplay d).keys = s.keys := rfl
@[simp] theorem State.setDisplay_currentOpcode (d : Display) : (s.setDisplay d).currentOpcode = s.currentOpcode := rfl
@[simp] theorem State.setDisplay_rng (d : Display) : (s.setDisplay d).rng = s.rng := rfl
@[simp] theorem State.setDisplay_fault (d : Display) : (s.setDisplay d).fault = s.fault := rfl
@[simp] theorem State.setDisplay_loaded (d : Display) : (s.setDisplay d).loaded = s.loaded := rfl
@[simp] theorem State.setDisplay_started (d : Display) : (s.setDisplay d).started = s.started := rfl
@[simp] theorem State.setDisplay_params (d : Display) : (s.setDisplay d).params = s.params := rfl

/-! ### State.setFrame -/

@[simp] theorem State.setFrame_mem (k : Vector Word 16) (p : Byte) (w : Word) :
    (s.setFrame k p w).mem = s.mem := rfl
@[simp] theorem State.setFrame_v (k : Vector Word 16) (p : Byte) (w : Word) :
    (s.setFrame k p w).v = s.v := rfl
@[simp] theorem State.setFrame_i (k : Vector Word 16) (p : Byte) (w : Word) :
    (s.setFrame k p w).i = s.i := rfl
@[simp] theorem State.setFrame_pc (k : Vector Word 16) (p : Byte) (w : Word) :
    (s.setFrame k p w).pc = w := rfl
@[simp] theorem State.setFrame_stack (k : Vector Word 16) (p : Byte) (w : Word) :
    (s.setFrame k p w).stack = k := rfl
@[simp] theorem State.setFrame_sp (k : Vector Word 16) (p : Byte) (w : Word) :
    (s.setFrame k p w).sp = p := rfl
@[simp] theorem State.setFrame_dt (k : Vector Word 16) (p : Byte) (w : Word) :
    (s.setFrame k p w).dt = s.dt := rfl
@[simp] theorem State.setFrame_st (k : Vector Word 16) (p : Byte) (w : Word) :
    (s.setFrame k p w).st = s.st := rfl
@[simp] theorem State.setFrame_display (k : Vector Word 16) (p : Byte) (w : Word) :
    (s.setFrame k p w).display = s.display := rfl
@[simp] theorem State.setFrame_keys (k : Vector Word 16) (p : Byte) (w : Word) :
    (s.setFrame k p w).keys = s.keys := rfl
@[simp] theorem State.setFrame_currentOpcode (k : Vector Word 16) (p : Byte) (w : Word) :
    (s.setFrame k p w).currentOpcode = s.currentOpcode := rfl
@[simp] theorem State.setFrame_rng (k : Vector Word 16) (p : Byte) (w : Word) :
    (s.setFrame k p w).rng = s.rng := rfl
@[simp] theorem State.setFrame_fault (k : Vector Word 16) (p : Byte) (w : Word) :
    (s.setFrame k p w).fault = s.fault := rfl
@[simp] theorem State.setFrame_loaded (k : Vector Word 16) (p : Byte) (w : Word) :
    (s.setFrame k p w).loaded = s.loaded := rfl
@[simp] theorem State.setFrame_started (k : Vector Word 16) (p : Byte) (w : Word) :
    (s.setFrame k p w).started = s.started := rfl
@[simp] theorem State.setFrame_params (k : Vector Word 16) (p : Byte) (w : Word) :
    (s.setFrame k p w).params = s.params := rfl

/-! ### enterFault -/

@[simp] theorem enterFault_mem (r : FaultRecord) : (enterFault r s).mem = s.mem := rfl
@[simp] theorem enterFault_v (r : FaultRecord) : (enterFault r s).v = s.v := rfl
@[simp] theorem enterFault_i (r : FaultRecord) : (enterFault r s).i = s.i := rfl
@[simp] theorem enterFault_pc (r : FaultRecord) : (enterFault r s).pc = r.faultPc := rfl
@[simp] theorem enterFault_stack (r : FaultRecord) : (enterFault r s).stack = s.stack := rfl
@[simp] theorem enterFault_sp (r : FaultRecord) : (enterFault r s).sp = s.sp := rfl
@[simp] theorem enterFault_dt (r : FaultRecord) : (enterFault r s).dt = s.dt := rfl
@[simp] theorem enterFault_st (r : FaultRecord) : (enterFault r s).st = s.st := rfl
@[simp] theorem enterFault_display (r : FaultRecord) : (enterFault r s).display = s.display := rfl
@[simp] theorem enterFault_keys (r : FaultRecord) : (enterFault r s).keys = s.keys := rfl
@[simp] theorem enterFault_currentOpcode (r : FaultRecord) : (enterFault r s).currentOpcode = s.currentOpcode := rfl
@[simp] theorem enterFault_rng (r : FaultRecord) : (enterFault r s).rng = s.rng := rfl
@[simp] theorem enterFault_fault (r : FaultRecord) : (enterFault r s).fault = some r := rfl
@[simp] theorem enterFault_loaded (r : FaultRecord) : (enterFault r s).loaded = s.loaded := rfl
@[simp] theorem enterFault_started (r : FaultRecord) : (enterFault r s).started = true := rfl
@[simp] theorem enterFault_params (r : FaultRecord) : (enterFault r s).params = s.params := rfl

/-! ### beginExecute -/

@[simp] theorem beginExecute_mem (w : Word) : (beginExecute w s).mem = s.mem := rfl
@[simp] theorem beginExecute_v (w : Word) : (beginExecute w s).v = s.v := rfl
@[simp] theorem beginExecute_i (w : Word) : (beginExecute w s).i = s.i := rfl
@[simp] theorem beginExecute_pc (w : Word) : (beginExecute w s).pc = s.pc + 2 := rfl
@[simp] theorem beginExecute_stack (w : Word) : (beginExecute w s).stack = s.stack := rfl
@[simp] theorem beginExecute_sp (w : Word) : (beginExecute w s).sp = s.sp := rfl
@[simp] theorem beginExecute_dt (w : Word) : (beginExecute w s).dt = s.dt := rfl
@[simp] theorem beginExecute_st (w : Word) : (beginExecute w s).st = s.st := rfl
@[simp] theorem beginExecute_display (w : Word) : (beginExecute w s).display = s.display := rfl
@[simp] theorem beginExecute_keys (w : Word) : (beginExecute w s).keys = s.keys := rfl
@[simp] theorem beginExecute_currentOpcode (w : Word) : (beginExecute w s).currentOpcode = w := rfl
@[simp] theorem beginExecute_rng (w : Word) : (beginExecute w s).rng = s.rng := rfl
@[simp] theorem beginExecute_fault (w : Word) : (beginExecute w s).fault = s.fault := rfl
@[simp] theorem beginExecute_loaded (w : Word) : (beginExecute w s).loaded = s.loaded := rfl
@[simp] theorem beginExecute_started (w : Word) : (beginExecute w s).started = true := rfl
@[simp] theorem beginExecute_params (w : Word) : (beginExecute w s).params = s.params := rfl

/-! ### timerStage -/

@[simp] theorem timerStage_mem : (timerStage s).mem = s.mem := rfl
@[simp] theorem timerStage_v : (timerStage s).v = s.v := rfl
@[simp] theorem timerStage_i : (timerStage s).i = s.i := rfl
@[simp] theorem timerStage_pc : (timerStage s).pc = s.pc := rfl
@[simp] theorem timerStage_stack : (timerStage s).stack = s.stack := rfl
@[simp] theorem timerStage_sp : (timerStage s).sp = s.sp := rfl
@[simp] theorem timerStage_dt : (timerStage s).dt = tickTimer s.dt := rfl
@[simp] theorem timerStage_st : (timerStage s).st = tickTimer s.st := rfl
@[simp] theorem timerStage_display : (timerStage s).display = s.display := rfl
@[simp] theorem timerStage_keys : (timerStage s).keys = s.keys := rfl
@[simp] theorem timerStage_currentOpcode : (timerStage s).currentOpcode = s.currentOpcode := rfl
@[simp] theorem timerStage_rng : (timerStage s).rng = s.rng := rfl
@[simp] theorem timerStage_fault : (timerStage s).fault = s.fault := rfl
@[simp] theorem timerStage_loaded : (timerStage s).loaded = s.loaded := rfl
@[simp] theorem timerStage_started : (timerStage s).started = s.started := rfl
@[simp] theorem timerStage_params : (timerStage s).params = s.params := rfl

/-! ### Reading a register or a byte after an update -/

@[simp] theorem State.getV_setV_same (r : Nibble) (b : Byte) : (s.setV r b).getV r = b := by
  simp [State.getV]

theorem State.getV_setV_other {r q : Nibble} (b : Byte) (h : q ≠ r) :
    (s.setV r b).getV q = s.getV q := by
  have hne : r.toNat ≠ q.toNat := fun e => h (BitVec.eq_of_toNat_eq e.symm)
  simp [State.getV, hne]

theorem State.getV_setV (r q : Nibble) (b : Byte) :
    (s.setV r b).getV q = if q = r then b else s.getV q := by
  split
  · next h => subst h; simp
  · next h => exact s.getV_setV_other b h

theorem State.getV_setVF (q : Nibble) (b : Byte) :
    (s.setVF b).getV q = if q = 0xF then b else s.getV q := s.getV_setV flagIndex q b

/-- Registers are equal when every read of one is. -/
theorem State.v_ext {s t : State} (h : ∀ r, t.getV r = s.getV r) : t.v = s.v := by
  apply Vector.ext
  intro k hk
  have := h (BitVec.ofNat 4 k)
  simpa [State.getV, Nat.mod_eq_of_lt hk] using this

/-- A read of a byte depends on the memory list and FONT only. -/
theorem State.readByte_congr {s t : State} (hm : t.mem = s.mem) (hp : t.params = s.params) (a : Nat) :
    t.readByte a = s.readByte a := by
  simp [State.readByte, hm, hp]

/-- A state that agrees on the memory list and FONT has the same memory. -/
theorem sameMemory_of_eq {s t : State} (hm : t.mem = s.mem) (hp : t.params = s.params) :
    SameMemory s t := State.readByte_congr hm hp

theorem State.getV_congr {s t : State} (h : t.v = s.v) (r : Nibble) : t.getV r = s.getV r := by
  simp [State.getV, h]

/-! ### skipIf -/

@[simp] theorem State.skipIf_mem (c : Bool) : (s.skipIf c).mem = s.mem := by cases c <;> rfl
@[simp] theorem State.skipIf_v (c : Bool) : (s.skipIf c).v = s.v := by cases c <;> rfl
@[simp] theorem State.skipIf_i (c : Bool) : (s.skipIf c).i = s.i := by cases c <;> rfl
@[simp] theorem State.skipIf_stack (c : Bool) : (s.skipIf c).stack = s.stack := by cases c <;> rfl
@[simp] theorem State.skipIf_sp (c : Bool) : (s.skipIf c).sp = s.sp := by cases c <;> rfl
@[simp] theorem State.skipIf_dt (c : Bool) : (s.skipIf c).dt = s.dt := by cases c <;> rfl
@[simp] theorem State.skipIf_st (c : Bool) : (s.skipIf c).st = s.st := by cases c <;> rfl
@[simp] theorem State.skipIf_display (c : Bool) : (s.skipIf c).display = s.display := by cases c <;> rfl
@[simp] theorem State.skipIf_keys (c : Bool) : (s.skipIf c).keys = s.keys := by cases c <;> rfl
@[simp] theorem State.skipIf_currentOpcode (c : Bool) : (s.skipIf c).currentOpcode = s.currentOpcode := by cases c <;> rfl
@[simp] theorem State.skipIf_rng (c : Bool) : (s.skipIf c).rng = s.rng := by cases c <;> rfl
@[simp] theorem State.skipIf_fault (c : Bool) : (s.skipIf c).fault = s.fault := by cases c <;> rfl
@[simp] theorem State.skipIf_loaded (c : Bool) : (s.skipIf c).loaded = s.loaded := by cases c <;> rfl
@[simp] theorem State.skipIf_started (c : Bool) : (s.skipIf c).started = s.started := by cases c <;> rfl
@[simp] theorem State.skipIf_params (c : Bool) : (s.skipIf c).params = s.params := by cases c <;> rfl
@[simp] theorem State.skipIf_pc (c : Bool) :
    (s.skipIf c).pc = if c then s.pc + 2 else s.pc := by cases c <;> rfl

end Sys2Proof.Machine
end

