-- ==== Sys2Proof/Laws/Memory.lean ====
section
/-! SUPPORT. The laws of memory: a read gives the last byte written there, other bytes are left alone, and
every operation keeps the canonical form (20_memory.md R43, R47, R49). -/

namespace Sys2Proof.Machine

/-! ### The list -/

theorem Memory.lookup_insert (m : List Host.Cell) (a c : Nat) (b : Byte) :
    Memory.lookup (Memory.insert a b m) c = if a = c then some b else Memory.lookup m c := by
  induction m with
  | nil => simp [Memory.insert, Memory.lookup]
  | cons p m ih =>
    obtain ⟨k, d⟩ := p
    simp only [Memory.insert]
    split
    · simp [Memory.lookup]
    · split
      · next _ h => subst h; simp only [Memory.lookup]; split <;> rfl
      · next h1 h2 =>
        simp only [Memory.lookup, ih]
        split
        · next h => subst h; simp [h2]
        · rfl

theorem Memory.lookup_erase (m : List Host.Cell) (a c : Nat) :
    Memory.lookup (Memory.erase a m) c = if a = c then none else Memory.lookup m c := by
  induction m with
  | nil => simp [Memory.erase, Memory.lookup]
  | cons p m ih =>
    obtain ⟨k, d⟩ := p
    simp only [Memory.erase] at ih ⊢
    by_cases hk : k = a
    · subst hk
      simp only [List.filter_cons, bne_self_eq_false, Bool.false_eq_true, if_false, ih, Memory.lookup]
      split <;> rfl
    · simp only [List.filter_cons, bne_iff_ne, ne_eq, hk, not_false_eq_true, if_true, Memory.lookup, ih]
      split
      · next h => subst h; simp [Ne.symm hk]
      · rfl

theorem Memory.mem_insert {m : List Host.Cell} {a : Nat} {b : Byte} {c : Host.Cell}
    (h : c ∈ Memory.insert a b m) : c = (a, b) ∨ c ∈ m := by
  induction m with
  | nil => simpa [Memory.insert] using h
  | cons p m ih =>
    obtain ⟨k, d⟩ := p
    simp only [Memory.insert] at h
    split at h
    · simpa using h
    · split at h
      · rcases List.mem_cons.1 h with h | h
        · exact .inl h
        · exact .inr (List.mem_cons_of_mem _ h)
      · rcases List.mem_cons.1 h with h | h
        · exact .inr (h ▸ List.mem_cons_self)
        · exact (ih h).imp_right (List.mem_cons_of_mem _)

theorem Memory.insert_rising {m : List Host.Cell} (a : Nat) (b : Byte)
    (h : m.Pairwise (fun p q => p.1 < q.1)) :
    (Memory.insert a b m).Pairwise (fun p q => p.1 < q.1) := by
  induction m with
  | nil => simp [Memory.insert]
  | cons p m ih =>
    obtain ⟨k, d⟩ := p
    obtain ⟨hk, hm⟩ := List.pairwise_cons.1 h
    simp only [Memory.insert]
    split
    · next hlt =>
      refine List.pairwise_cons.2 ⟨fun c hc => ?_, h⟩
      rcases List.mem_cons.1 hc with rfl | hc
      · exact hlt
      · exact Nat.lt_trans hlt (hk c hc)
    · split
      · next _ he =>
        subst he
        exact List.pairwise_cons.2 ⟨hk, hm⟩
      · next h1 h2 =>
        refine List.pairwise_cons.2 ⟨fun c hc => ?_, ih hm⟩
        rcases Memory.mem_insert hc with rfl | hc
        · change k < a; omega
        · exact hk c hc

/-- A store keeps the canonical form. -/
theorem Memory.write_wf {font : Font} {m : List Host.Cell} {a : Nat} (b : Byte)
    (ha : a < 0x1000) (h : Memory.wf font m) : Memory.wf font (Memory.write font m a b) := by
  obtain ⟨hs, hc⟩ := h
  unfold Memory.write
  split
  · exact ⟨hs.filter _, fun c hm => hc c (List.mem_of_mem_filter hm)⟩
  · next hne =>
    refine ⟨Memory.insert_rising a b hs, fun c hm => ?_⟩
    rcases Memory.mem_insert hm with rfl | hm
    · exact ⟨ha, hne⟩
    · exact hc c hm

/-! ### One byte -/

theorem inRange_iff (a : Nat) : inRange a = true ↔ a ≤ 0xFFF := by simp [inRange]

theorem State.readByte_writeByte_same (s : State) {a : Nat} (b : Byte) (ha : a ≤ 0xFFF) :
    (s.writeByte a b).readByte a = b := by
  have hr : inRange a = true := (inRange_iff a).2 ha
  simp only [State.writeByte, hr, if_true, State.readByte, Memory.write]
  split
  · next h => simp [Memory.lookup_erase, h]
  · simp [Memory.lookup_insert]

theorem State.readByte_writeByte_other (s : State) {a c : Nat} (b : Byte) (h : c ≠ a) :
    (s.writeByte a b).readByte c = s.readByte c := by
  simp only [State.writeByte]
  split
  · simp only [State.readByte, Memory.write]
    split
    · simp [Memory.lookup_erase, Ne.symm h]
    · simp [Memory.lookup_insert, Ne.symm h]
  · rfl

/-- A store changes the memory list only. -/
theorem State.writeByte_eq (s : State) (a : Nat) (b : Byte) :
    s.writeByte a b = { s with mem := (s.writeByte a b).mem } := by
  simp only [State.writeByte]; split <;> rfl

theorem State.writeByte_wf (s : State) (a : Nat) (b : Byte) (h : Memory.wf s.params.font s.mem) :
    Memory.wf s.params.font (s.writeByte a b).mem := by
  simp only [State.writeByte]
  split
  · next ha => exact Memory.write_wf b (Nat.lt_succ_of_le ((inRange_iff a).1 ha)) h
  · exact h

/-! ### Transfers -/

/-- Everything a multi-byte store changes: the memory list. -/
theorem State.storeBytes_eq (s : State) (a : Nat) (bs : List Byte) :
    s.storeBytes a bs = { s with mem := (s.storeBytes a bs).mem } := by
  induction bs generalizing s a with
  | nil => rfl
  | cons b bs ih =>
    simp only [State.storeBytes]
    rw [ih, State.writeByte_eq]

@[simp] theorem State.storeBytes_params (s : State) (a : Nat) (bs : List Byte) :
    (s.storeBytes a bs).params = s.params := by rw [State.storeBytes_eq]

/-- Outside the transfer every byte reads as before. -/
theorem State.readByte_storeBytes_outside (s : State) (a : Nat) (bs : List Byte) {c : Nat}
    (h : c < a ∨ a + bs.length ≤ c) : (s.storeBytes a bs).readByte c = s.readByte c := by
  induction bs generalizing s a with
  | nil => rfl
  | cons b bs ih =>
    simp only [State.storeBytes]
    rw [ih _ _ (by simp only [List.length_cons] at h; omega)]
    exact s.readByte_writeByte_other b (by simp only [List.length_cons] at h; omega)

/-- Inside the transfer each byte reads as stored, when the transfer is in range. -/
theorem State.readByte_storeBytes_inside (s : State) (a : Nat) (bs : List Byte) (k : Nat)
    (hk : k < bs.length) (hr : a + bs.length ≤ 0x1000) :
    (s.storeBytes a bs).readByte (a + k) = bs[k] := by
  induction bs generalizing s a k with
  | nil => simp at hk
  | cons b bs ih =>
    simp only [List.length_cons] at hk hr
    cases k with
    | zero =>
      simp only [State.storeBytes, Nat.add_zero, List.getElem_cons_zero]
      rw [State.readByte_storeBytes_outside _ _ _ (by omega)]
      exact s.readByte_writeByte_same b (by omega)
    | succ k =>
      simp only [State.storeBytes, List.getElem_cons_succ]
      have := ih (s.writeByte a b) (a + 1) k (by omega) (by omega)
      rwa [show a + 1 + k = a + (k + 1) by omega] at this

theorem State.storeBytes_wf (s : State) (a : Nat) (bs : List Byte)
    (h : Memory.wf s.params.font s.mem) : Memory.wf s.params.font (s.storeBytes a bs).mem := by
  induction bs generalizing s a with
  | nil => exact h
  | cons b bs ih =>
    have hp : (s.writeByte a b).params = s.params := by rw [State.writeByte_eq]
    have := ih (s.writeByte a b) (a + 1) (by rw [hp]; exact s.writeByte_wf a b h)
    rwa [hp] at this

@[simp] theorem State.loadBytes_length (s : State) (a n : Nat) : (s.loadBytes a n).length = n := by
  induction n generalizing a with
  | zero => rfl
  | succ n ih => simp [State.loadBytes, ih]

/-- The k-th byte of a load is the byte at the k-th address. -/
theorem State.loadBytes_getElem (s : State) (a n k : Nat) (hk : k < (s.loadBytes a n).length) :
    (s.loadBytes a n)[k] = s.readByte (a + k) := by
  induction n generalizing a k with
  | zero => simp at hk
  | succ n ih =>
    cases k with
    | zero => simp [State.loadBytes]
    | succ k =>
      simp only [State.loadBytes, List.getElem_cons_succ]
      rw [ih (a + 1) k (by simpa [State.loadBytes] using hk), show a + 1 + k = a + (k + 1) by omega]

theorem State.loadBytes_congr {s t : State} (h : SameMemory s t) (a n : Nat) :
    t.loadBytes a n = s.loadBytes a n := by
  induction n generalizing a with
  | zero => rfl
  | succ n ih => simp [State.loadBytes, ih, h a]

/-- The check of a transfer: none when every byte is in range, else the least address that is not. -/
theorem transferFault_none_iff (base count : Nat) :
    transferFault base count = none ↔ count = 0 ∨ base + count ≤ 0x1000 := by
  unfold transferFault
  split
  · next h => simp; omega
  · next h => simp; omega

theorem transferFault_some_iff (base count a : Nat) :
    transferFault base count = some a ↔ (0 < count ∧ 0x1000 < base + count) ∧ a = max base 0x1000 := by
  unfold transferFault
  split
  · next h => simp only [Option.some.injEq]; omega
  · next h => simp only [reduceCtorEq, false_iff]; omega

/-! ### Reset -/

theorem State.constructed_mem_wf (p : Params) :
    Memory.wf (State.constructed p).params.font (State.constructed p).mem := by
  simp [State.constructed, Memory.wf]

/-- After construction every byte reads as its content after construction. -/
theorem State.readByte_constructed (p : Params) (a : Nat) :
    (State.constructed p).readByte a = unlistedByte p.font a := rfl

end Sys2Proof.Machine
end

