-- ==== Sys2Proof/Laws/Ops.lean ====
section
/-! SUPPORT. One lemma per shared operation that says everything it can do: fault entry, the stack, keys,
the several-register write, the sprite drawer, the stages of a step. -/

namespace Sys2Proof.Machine

/-! ### Faults -/

/-- A raised fault is always taken, with nothing but pc, started and fault changed (R113, R114). -/
theorem raise_takesFault (kind : FaultKind) (addr : Nat) (s : State) :
    TakesFault (raise kind addr s) s kind addr := rfl

/-! ### The stack -/

/-- Everything 2nnn's operation can do: overflow at 16, a push below, a stop above. -/
theorem pushAndJump_cases (target : Word) (s : State) :
    (s.sp.toNat = 16 ∧ pushAndJump target s = raise .stackOverflow 16 s) ∨
    (∃ h : s.sp.toNat < 16, pushAndJump target s =
      .next (s.setFrame (s.stack.set s.sp.toNat s.pc h) (s.sp + 1) target)) ∨
    (16 < s.sp.toNat ∧ pushAndJump target s = .fault .stackPointerRange) := by
  unfold pushAndJump
  split
  · next h => exact .inl ⟨h, by rw [h]⟩
  · split
    · next h => exact .inr (.inl ⟨h, rfl⟩)
    · exact .inr (.inr ⟨by omega, rfl⟩)

/-- Everything 00EE's operation can do: underflow at 0, a pop for 1..16, a stop above. -/
theorem popAndJump_cases (s : State) :
    (s.sp.toNat = 0 ∧ popAndJump s = raise .stackUnderflow 0 s) ∨
    (∃ h : 0 < s.sp.toNat ∧ s.sp.toNat ≤ 16, popAndJump s =
      .next (s.setFrame s.stack (s.sp - 1) (s.stack[s.sp.toNat - 1]'(by omega)))) ∨
    (16 < s.sp.toNat ∧ popAndJump s = .fault .stackPointerRange) := by
  unfold popAndJump
  split
  · next h => exact .inl ⟨h, by rw [h]⟩
  · next h0 =>
    by_cases h : s.sp.toNat ≤ 16
    · refine .inr (.inl ⟨⟨by omega, h⟩, ?_⟩)
      rw [Vector.getElem?_eq_getElem (by omega)]
    · refine .inr (.inr ⟨by omega, ?_⟩)
      rw [Vector.getElem?_eq_none (by omega)]

/-! ### Keys -/

theorem State.keyCell_of_lt (s : State) (k : Byte) (h : k.toNat < 16) :
    s.keyCell k = some s.keys[k.toNat] := by
  simp [State.keyCell, h]

theorem State.keyCell_none_iff (s : State) (k : Byte) : s.keyCell k = none ↔ 15 < k.toNat := by
  simp [State.keyCell]; omega

/-- Everything a key skip can do (R83). -/
theorem skipOnKey_cases (x : Nibble) (pressed : Bool) (s : State) :
    (15 < (s.getV x).toNat ∧ skipOnKey x pressed s = raise .keyIndex (s.getV x).toNat s) ∨
    (∃ h : (s.getV x).toNat < 16,
      skipOnKey x pressed s = .next (s.skipIf (s.keys[(s.getV x).toNat] == pressed))) := by
  unfold skipOnKey
  by_cases h : (s.getV x).toNat < 16
  · exact .inr ⟨h, by rw [s.keyCell_of_lt _ h]⟩
  · exact .inl ⟨by omega, by rw [(s.keyCell_none_iff _).2 (by omega)]⟩

/-- No key is found exactly when none is pressed. -/
theorem lowestPressedKey_none_iff (keys : Vector Bool 16) :
    lowestPressedKey keys = none ↔ ∀ k : Fin 16, keys[k] = false := by
  rw [lowestPressedKey, List.findIdx?_eq_none_iff]
  constructor
  · intro h k
    exact h _ (by rw [Vector.mem_toList_iff]; exact Vector.getElem_mem k.2)
  · intro h b hb
    rw [Vector.mem_toList_iff] at hb
    obtain ⟨k, hk, rfl⟩ := Vector.getElem_of_mem hb
    exact h ⟨k, hk⟩

/-- The key found is pressed and no lower one is. -/
theorem lowestPressedKey_some_iff (keys : Vector Bool 16) (k : Nat) :
    lowestPressedKey keys = some k ↔
      ∃ h : k < 16, keys[k] = true ∧ ∀ j, ∀ hj : j < k, keys[j]'(by omega) = false := by
  rw [lowestPressedKey, List.findIdx?_eq_some_iff_getElem]
  simp

/-! ### Several registers -/

theorem State.setVs_eq (s : State) (r : Nat) (bs : List Byte) :
    s.setVs r bs = { s with v := (s.setVs r bs).v } := by
  induction bs generalizing s r with
  | nil => rfl
  | cons b bs ih =>
    simp only [State.setVs]
    rw [ih]
    split <;> rfl

/-- What a register holds after bytes were written to the registers from `r` on. -/
theorem State.getV_setVs (s : State) (r : Nat) (bs : List Byte) (q : Nibble)
    (h : r + bs.length ≤ 16) :
    (s.setVs r bs).getV q =
      if hq : r ≤ q.toNat ∧ q.toNat < r + bs.length then bs[q.toNat - r] else s.getV q := by
  induction bs generalizing s r with
  | nil => simp [State.setVs]
  | cons b bs ih =>
    simp only [List.length_cons] at h
    have hr : r < 16 := by omega
    simp only [State.setVs, hr, if_true]
    rw [ih _ _ (by omega)]
    by_cases h1 : r + 1 ≤ q.toNat ∧ q.toNat < r + 1 + bs.length
    · have h2 : r ≤ q.toNat ∧ q.toNat < r + (b :: bs).length := by
        simp only [List.length_cons]; omega
      rw [dif_pos h1, dif_pos h2]
      simp only [show q.toNat - r = (q.toNat - (r + 1)) + 1 by omega, List.getElem_cons_succ]
    · rw [dif_neg h1, State.getV_setV]
      have hn : (BitVec.ofNat 4 r).toNat = r := by simp; omega
      split
      · next he =>
        have hv : q.toNat = r := by rw [he, hn]
        have h2 : r ≤ q.toNat ∧ q.toNat < r + (b :: bs).length := by
          simp only [List.length_cons]; omega
        rw [dif_pos h2]
        simp [hv]
      · next he =>
        have hv : q.toNat ≠ r := fun e => he (BitVec.eq_of_toNat_eq (by rw [hn, e]))
        have h2 : ¬ (r ≤ q.toNat ∧ q.toNat < r + (b :: bs).length) := by
          simp only [List.length_cons]; omega
        rw [dif_neg h2]

theorem State.registersUpTo_length (s : State) (x : Nibble) :
    (s.registersUpTo x).length = registerCount x := by
  have := x.isLt
  simp [State.registersUpTo, registerCount]
  omega

theorem State.registersUpTo_getElem (s : State) (x : Nibble) (k : Nat)
    (hk : k < (s.registersUpTo x).length) :
    (s.registersUpTo x)[k] = s.getV (BitVec.ofNat 4 k) := by
  have hx := x.isLt
  rw [s.registersUpTo_length, registerCount] at hk
  have hk' : k < 16 := by omega
  simp [State.registersUpTo, State.getV, Nat.mod_eq_of_lt hk']

/-- Everything a store through I can do (R100). -/
theorem storeThroughIndex_cases (bs : List Byte) (s : State) :
    (0 < bs.length ∧ 0x1000 < s.i.toNat + bs.length ∧
      storeThroughIndex bs s = raise .memBounds (max s.i.toNat 0x1000) s) ∨
    ((bs.length = 0 ∨ s.i.toNat + bs.length ≤ 0x1000) ∧
      storeThroughIndex bs s = .next (s.storeBytes s.i.toNat bs)) := by
  unfold storeThroughIndex
  cases h : transferFault s.indexBase bs.length with
  | none => exact .inr ⟨(transferFault_none_iff _ _).1 h, rfl⟩
  | some a =>
    obtain ⟨⟨h1, h2⟩, rfl⟩ := (transferFault_some_iff _ _ _).1 h
    exact .inl ⟨h1, h2, rfl⟩

/-! ### The sprite drawer -/

/-- The set bits of a sprite are the pairs (i, j), j below 8, whose bit is set. -/
theorem mem_spriteBits (i0 : Nat) (rows : List Byte) (ij : Nat × Nat) :
    ij ∈ spriteBits i0 rows ↔
      ∃ k, ∃ h : k < rows.length, ij.1 = i0 + k ∧ ij.2 < 8 ∧ spriteBit rows[k] ij.2 = true := by
  induction rows generalizing i0 with
  | nil => simp [spriteBits]
  | cons row rows ih =>
    simp only [spriteBits, List.mem_append, List.mem_map, List.mem_filter, List.mem_range, ih]
    constructor
    · rintro (⟨j, ⟨hj, hb⟩, rfl⟩ | ⟨k, h, h1, h2, h3⟩)
      · exact ⟨0, by simp, by simp, hj, hb⟩
      · exact ⟨k + 1, by simpa using h, by omega, h2, by simpa using h3⟩
    · rintro ⟨k, h, h1, h2, h3⟩
      cases k with
      | zero => exact .inl ⟨ij.2, ⟨h2, by simpa using h3⟩, Prod.ext (by simp; omega) rfl⟩
      | succ k => exact .inr ⟨k, by simpa using h, by omega, h2, by simpa using h3⟩

theorem pixelOn_togglePixel (d : Display) (t u : Nat) (ht : t < 2048) :
    pixelOn (togglePixel d t) u = (pixelOn d u ^^ decide (t = u)) := by
  simp only [pixelOn, togglePixel, BitVec.getLsbD_xor, BitVec.getLsbD_twoPow]
  have : (decide (t < 2048) && decide (u = t)) = decide (t = u) := by
    simp [ht, eq_comm]
  rw [← this]
  simp [eq_comm]

/-- The write phase over distinct pixels of the display: each is toggled once, no other is touched. -/
theorem drawPixels_pixels (d : Display) (c : Bool) (ts : List Nat) (hn : ts.Nodup)
    (hr : ∀ t ∈ ts, t < 2048) (u : Nat) :
    pixelOn (drawPixels d c ts).1 u = (pixelOn d u ^^ decide (u ∈ ts)) := by
  induction ts generalizing d c with
  | nil => simp [drawPixels]
  | cons t ts ih =>
    obtain ⟨h1, h2⟩ := List.nodup_cons.1 hn
    simp only [drawPixels]
    rw [ih _ _ h2 (fun v hv => hr v (List.mem_cons_of_mem _ hv)),
      pixelOn_togglePixel _ _ _ (hr t List.mem_cons_self)]
    by_cases hu : t = u
    · subst hu; simp [h1]
    · simp [hu, Ne.symm hu]

/-- The collision over distinct pixels: one of them was on before the draw. -/
theorem drawPixels_collision (d : Display) (c : Bool) (ts : List Nat) (hn : ts.Nodup)
    (hr : ∀ t ∈ ts, t < 2048) :
    (drawPixels d c ts).2 = (c || ts.any (pixelOn d)) := by
  induction ts generalizing d c with
  | nil => simp [drawPixels]
  | cons t ts ih =>
    obtain ⟨h1, h2⟩ := List.nodup_cons.1 hn
    have hs : ts.any (pixelOn (togglePixel d t)) = ts.any (pixelOn d) := by
      rw [Bool.eq_iff_iff, List.any_eq_true, List.any_eq_true]
      refine exists_congr fun v => and_congr_right fun hv => ?_
      rw [pixelOn_togglePixel _ _ _ (hr t List.mem_cons_self)]
      have : t ≠ v := fun e => h1 (e ▸ hv)
      simp [this]
    simp only [drawPixels]
    rw [ih _ _ h2 (fun v hv => hr v (List.mem_cons_of_mem _ hv)), hs]
    simp [Bool.or_assoc]

/-- The check phase finds nothing exactly when no target is past the display. -/
theorem firstOut_none_iff (ts : List SpriteTarget) : firstOut ts = none ↔ ∀ t, .out t ∉ ts := by
  induction ts with
  | nil => simp [firstOut]
  | cons a ts ih =>
    cases a with
    | out t => simpa [firstOut] using ⟨t, fun h => absurd rfl h⟩
    | pixel t => simp [firstOut, ih]
    | nowhere => simp [firstOut, ih]

theorem mem_pixelsOf (ts : List SpriteTarget) (t : Nat) : t ∈ pixelsOf ts ↔ .pixel t ∈ ts := by
  induction ts with
  | nil => simp [pixelsOf]
  | cons a ts ih => cases a <;> simp [pixelsOf, ih]

/-- Everything Dxyn can do (R72). -/
theorem execDrw_cases (x y n : Nibble) (s : State) :
    (0 < n.toNat ∧ 0x1000 < s.i.toNat + n.toNat ∧
      execDrw x y n s = raise .memBounds (max s.i.toNat 0x1000) s) ∨
    ((n.toNat = 0 ∨ s.i.toNat + n.toNat ≤ 0x1000) ∧
      ((∃ t, firstOut (drawTargets x y n s) = some t ∧
          execDrw x y n s = raise .displayBounds t s) ∨
       (firstOut (drawTargets x y n s) = none ∧
          execDrw x y n s = .next
            ((s.setDisplay (drawPixels s.display false (pixelsOf (drawTargets x y n s))).1).setVF
              (collisionFlag (drawPixels s.display false (pixelsOf (drawTargets x y n s))).2))))) := by
  unfold execDrw
  cases h : transferFault s.indexBase n.toNat with
  | some a =>
    obtain ⟨⟨h1, h2⟩, rfl⟩ := (transferFault_some_iff _ _ _).1 h
    exact .inl ⟨h1, h2, rfl⟩
  | none =>
    refine .inr ⟨(transferFault_none_iff _ _).1 h, ?_⟩
    cases h2 : firstOut (drawTargets x y n s) with
    | some t => exact .inl ⟨t, rfl, rfl⟩
    | none => exact .inr ⟨rfl, rfl⟩

/-- Everything Fx65 can do (R106). -/
theorem execLdVxMem_cases (x : Nibble) (s : State) :
    (0x1000 < s.i.toNat + registerCount x ∧
      execLdVxMem x s = raise .memBounds (max s.i.toNat 0x1000) s) ∨
    (s.i.toNat + registerCount x ≤ 0x1000 ∧
      execLdVxMem x s = .next (s.setVs 0 (s.loadBytes s.i.toNat (registerCount x)))) := by
  unfold execLdVxMem
  cases h : transferFault s.indexBase (registerCount x) with
  | none =>
    have := (transferFault_none_iff _ _).1 h
    exact .inr ⟨by simp only [registerCount] at this ⊢; simp only [State.indexBase] at this; omega, rfl⟩
  | some a =>
    obtain ⟨⟨h1, h2⟩, rfl⟩ := (transferFault_some_iff _ _ _).1 h
    exact .inl ⟨h2, rfl⟩

/-- Everything Fx0A can do (R110). -/
theorem execLdVxK_cases (x : Nibble) (s : State) :
    (∃ k, lowestPressedKey s.keys = some k ∧ execLdVxK x s = .next (s.setV x (BitVec.ofNat 8 k))) ∨
    (lowestPressedKey s.keys = none ∧ execLdVxK x s = .next (s.setPc (s.pc - 2))) := by
  unfold execLdVxK
  cases h : lowestPressedKey s.keys with
  | some k => exact .inl ⟨k, rfl, rfl⟩
  | none => exact .inr ⟨rfl, rfl⟩

/-! ### The stages of a step -/

theorem tickTimer_toNat (t : Byte) : (tickTimer t).toNat = t.toNat - 1 := by
  unfold tickTimer
  split
  · next h => bv_omega
  · next h => omega

/-- The fetch (R58): a word when pc is at most 0xFFE, none above. -/
theorem fetchWord_cases (s : State) :
    (0xFFF ≤ s.pc.toNat ∧ fetchWord s = none) ∨
    (s.pc.toNat ≤ 0xFFE ∧
      fetchWord s = some (wordOfBytes (s.readByte s.pc.toNat) (s.readByte (s.pc.toNat + 1)))) := by
  unfold fetchWord
  split
  · next h => exact .inl ⟨by omega, rfl⟩
  · next h => exact .inr ⟨by omega, rfl⟩

theorem endStep_of_fault (s0 : State) {t : State} (h : t.fault.isSome = true) :
    endStep s0 t = { t with currentOpcode := s0.currentOpcode } := by
  simp [endStep, h]

theorem endStep_of_running (s0 : State) {t : State} (h : t.fault = none) :
    endStep s0 t = timerStage t := by
  simp [endStep, h]

end Sys2Proof.Machine
end

