-- ==== Sys2Proof/Laws/Step.lean ====
section
/-! SUPPORT. What a step can do, said once (30_encoding.md R57): later proofs take a step apart with this. -/

namespace Sys2Proof.Machine

/-- If a step answers a next state, either the fetch faulted, or the execute stage of the fetched word
answered a state and the step ended from it. -/
theorem step_next_cases {s t : State} (h : step s = .next t) :
    s.fault = none ∧
    ((fetchWord s = none ∧ t = fetchFault s) ∨
     (∃ w u, fetchWord s = some w ∧ refusesWord s.params w = false ∧
        executeWord w (beginExecute w s) = .next u ∧ t = endStep s u)) := by
  unfold step at h
  split at h
  · cases h
  · next hf =>
    refine ⟨by simpa using hf, ?_⟩
    split at h
    · next hw => cases h; exact .inl ⟨hw, rfl⟩
    · next w hw =>
      split at h
      · cases h
      · next hr =>
        split at h
        · next u hu => cases h; exact .inr ⟨w, u, hw, by simpa using hr, hu, rfl⟩
        · cases h
        · cases h

/-- The execute stage of a word is that of its instruction, or nothing. -/
theorem executeWord_cases (w : Word) (s : State) :
    (∃ i, decode w = .ok i ∧ executeWord w s = exec i s) ∨
    (∃ why, decode w = .error why ∧ executeWord w s = .next s) := by
  unfold executeWord
  cases h : decode w with
  | ok i => exact .inl ⟨i, rfl, rfl⟩
  | error why => exact .inr ⟨why, rfl, rfl⟩

end Sys2Proof.Machine
end

