-- ==== Sys2Proof/Laws/Exec.lean ====
section
/-! SUPPORT. What the execute stage can do, said once for all instructions (30_encoding.md R63,
60_exceptions.md R112, R113). -/

namespace Sys2Proof.Machine

/-- The execute stage completed: what no instruction writes is as before. -/
def Completes (s t : State) : Prop :=
  t.fault = s.fault ∧ t.started = s.started ∧ t.keys = s.keys ∧
  t.currentOpcode = s.currentOpcode ∧ t.loaded = s.loaded ∧ t.params = s.params

theorem completes_storeBytes (s : State) (a : Nat) (bs : List Byte) :
    Completes s (s.storeBytes a bs) := by
  rw [State.storeBytes_eq]; exact ⟨rfl, rfl, rfl, rfl, rfl, rfl⟩

theorem completes_setVs (s : State) (r : Nat) (bs : List Byte) : Completes s (s.setVs r bs) := by
  rw [State.setVs_eq]; exact ⟨rfl, rfl, rfl, rfl, rfl, rfl⟩

theorem completes_skipIf (s : State) (c : Bool) : Completes s (s.skipIf c) := by
  simp [Completes]

/-- The execute stage completes, or takes a fault of R112 other than the fetch's, or stops on a stack
pointer that is not well-formed. -/
theorem exec_cases (i : Instr) (s : State) :
    (∃ t, exec i s = .next t ∧ Completes s t) ∨
    (∃ k a, k ≠ .fetchBounds ∧ exec i s = raise k a s) ∨
    (16 < s.sp.toNat ∧ exec i s = .fault .stackPointerRange) := by
  cases i
  case ret =>
    rcases popAndJump_cases s with ⟨_, h⟩ | ⟨_, h⟩ | ⟨h1, h⟩
    · exact .inr (.inl ⟨_, _, by decide, h⟩)
    · exact .inl ⟨_, h, rfl, rfl, rfl, rfl, rfl, rfl⟩
    · exact .inr (.inr ⟨h1, h⟩)
  case call n =>
    rcases pushAndJump_cases (addrOperand n) s with ⟨_, h⟩ | ⟨_, h⟩ | ⟨h1, h⟩
    · exact .inr (.inl ⟨_, _, by decide, h⟩)
    · exact .inl ⟨_, h, rfl, rfl, rfl, rfl, rfl, rfl⟩
    · exact .inr (.inr ⟨h1, h⟩)
  case skp x =>
    rcases skipOnKey_cases x true s with ⟨_, h⟩ | ⟨_, h⟩
    · exact .inr (.inl ⟨_, _, by decide, h⟩)
    · exact .inl ⟨_, h, completes_skipIf _ _⟩
  case sknp x =>
    rcases skipOnKey_cases x false s with ⟨_, h⟩ | ⟨_, h⟩
    · exact .inr (.inl ⟨_, _, by decide, h⟩)
    · exact .inl ⟨_, h, completes_skipIf _ _⟩
  case drw x y n =>
    rcases execDrw_cases x y n s with ⟨_, _, h⟩ | ⟨_, ⟨_, _, h⟩ | ⟨_, h⟩⟩
    · exact .inr (.inl ⟨_, _, by decide, h⟩)
    · exact .inr (.inl ⟨_, _, by decide, h⟩)
    · exact .inl ⟨_, h, rfl, rfl, rfl, rfl, rfl, rfl⟩
  case ldB x =>
    rcases storeThroughIndex_cases (decimalDigits (s.getV x)) s with ⟨_, _, h⟩ | ⟨_, h⟩
    · exact .inr (.inl ⟨_, _, by decide, h⟩)
    · exact .inl ⟨_, h, completes_storeBytes _ _ _⟩
  case ldMemVx x =>
    rcases storeThroughIndex_cases (s.registersUpTo x) s with ⟨_, _, h⟩ | ⟨_, h⟩
    · exact .inr (.inl ⟨_, _, by decide, h⟩)
    · exact .inl ⟨_, h, completes_storeBytes _ _ _⟩
  case ldVxMem x =>
    rcases execLdVxMem_cases x s with ⟨_, h⟩ | ⟨_, h⟩
    · exact .inr (.inl ⟨_, _, by decide, h⟩)
    · exact .inl ⟨_, h, completes_setVs _ _ _⟩
  case ldVxK x =>
    rcases execLdVxK_cases x s with ⟨k, _, h⟩ | ⟨_, h⟩
    · exact .inl ⟨_, h, rfl, rfl, rfl, rfl, rfl, rfl⟩
    · exact .inl ⟨_, h, rfl, rfl, rfl, rfl, rfl, rfl⟩
  case seImm x kk => exact .inl ⟨_, rfl, completes_skipIf _ _⟩
  case sneImm x kk => exact .inl ⟨_, rfl, completes_skipIf _ _⟩
  case seReg x y => exact .inl ⟨_, rfl, completes_skipIf _ _⟩
  case sneReg x y => exact .inl ⟨_, rfl, completes_skipIf _ _⟩
  all_goals exact .inl ⟨_, rfl, rfl, rfl, rfl, rfl, rfl, rfl⟩

end Sys2Proof.Machine
end

