-- ==== Sys2Proof/Laws/Fields.lean ====
section
/-! SUPPORT. The fields of the words the encoder makes (30_encoding.md R54, R55). -/

namespace Sys2Proof

theorem fieldCat_encA (c : Nibble) (nnn : Addr12) : fieldCat (encA c nnn) = c := by
  unfold fieldCat encA
  apply BitVec.eq_of_getLsbD_eq
  intro k hk
  simp only [BitVec.getLsbD_extractLsb', BitVec.getLsbD_append]
  interval_cases k <;> simp

theorem fieldNNN_encA (c : Nibble) (nnn : Addr12) : fieldNNN (encA c nnn) = nnn := by
  unfold fieldNNN encA
  apply BitVec.eq_of_getLsbD_eq
  intro k hk
  simp only [BitVec.getLsbD_extractLsb', BitVec.getLsbD_append]
  interval_cases k <;> simp

theorem fieldCat_encXK (c x : Nibble) (kk : Byte) : fieldCat (encXK c x kk) = c := by
  unfold fieldCat encXK
  apply BitVec.eq_of_getLsbD_eq
  intro k hk
  simp only [BitVec.getLsbD_extractLsb', BitVec.getLsbD_append]
  interval_cases k <;> simp

theorem fieldX_encXK (c x : Nibble) (kk : Byte) : fieldX (encXK c x kk) = x := by
  unfold fieldX encXK
  apply BitVec.eq_of_getLsbD_eq
  intro k hk
  simp only [BitVec.getLsbD_extractLsb', BitVec.getLsbD_append]
  interval_cases k <;> simp

theorem fieldKK_encXK (c x : Nibble) (kk : Byte) : fieldKK (encXK c x kk) = kk := by
  unfold fieldKK encXK
  apply BitVec.eq_of_getLsbD_eq
  intro k hk
  simp only [BitVec.getLsbD_extractLsb', BitVec.getLsbD_append]
  interval_cases k <;> simp

theorem fieldCat_encXYN (c x y n : Nibble) : fieldCat (encXYN c x y n) = c := by
  unfold fieldCat encXYN
  apply BitVec.eq_of_getLsbD_eq
  intro k hk
  simp only [BitVec.getLsbD_extractLsb', BitVec.getLsbD_append]
  interval_cases k <;> simp

theorem fieldX_encXYN (c x y n : Nibble) : fieldX (encXYN c x y n) = x := by
  unfold fieldX encXYN
  apply BitVec.eq_of_getLsbD_eq
  intro k hk
  simp only [BitVec.getLsbD_extractLsb', BitVec.getLsbD_append]
  interval_cases k <;> simp

theorem fieldY_encXYN (c x y n : Nibble) : fieldY (encXYN c x y n) = y := by
  unfold fieldY encXYN
  apply BitVec.eq_of_getLsbD_eq
  intro k hk
  simp only [BitVec.getLsbD_extractLsb', BitVec.getLsbD_append]
  interval_cases k <;> simp

theorem fieldN_encXYN (c x y n : Nibble) : fieldN (encXYN c x y n) = n := by
  unfold fieldN encXYN
  apply BitVec.eq_of_getLsbD_eq
  intro k hk
  simp only [BitVec.getLsbD_extractLsb', BitVec.getLsbD_append]
  interval_cases k <;> simp

/-- A word is made of its two bytes, the one at the lower address high (R45). -/
theorem wordOfBytes_bytes (w : Word) : wordOfBytes (highByte w) (lowByte w) = w := by
  unfold wordOfBytes highByte lowByte
  apply BitVec.eq_of_getLsbD_eq
  intro k hk
  simp only [BitVec.getLsbD_append, BitVec.getLsbD_extractLsb']
  have : k < 16 := hk
  interval_cases k <;> simp

end Sys2Proof
end

