-- ==== Sys2Proof/Laws/PerInstr.lean ====
section
/-! SUPPORT. Per instruction: its canonical word carries the fixed bits of its row of the opcode table. -/

namespace Sys2Proof.Laws.EncodeFixed

/-- The canonical word of an instruction has, in the bits the decoder examines for its row, the row's
value (30_encoding.md R60, R61). -/
def Statement (i : Instr) : Prop := encode i &&& (tableRow i).1 = (tableRow i).2

/-- A word of format `A` keeps its category under the mask of the category alone. -/
theorem encA_category (c : Nibble) (nnn : Addr12) : encA c nnn &&& 0xF000 = c ++ 0#12 := by
  unfold encA
  apply BitVec.eq_of_getLsbD_eq
  intro k hk
  simp only [BitVec.getLsbD_and, BitVec.getLsbD_append]
  have : k < 16 := hk
  interval_cases k <;> simp

/-- A word of format `XK` or `XF` keeps its category under the mask of the category alone. -/
theorem encXK_category (c x : Nibble) (kk : Byte) : encXK c x kk &&& 0xF000 = c ++ 0#12 := by
  unfold encXK
  apply BitVec.eq_of_getLsbD_eq
  intro k hk
  simp only [BitVec.getLsbD_and, BitVec.getLsbD_append]
  have : k < 16 := hk
  interval_cases k <;> simp

/-- A word of format `XF` keeps its category and low byte under the mask of both. -/
theorem encXK_lowByte (c x : Nibble) (kk : Byte) : encXK c x kk &&& 0xF0FF = c ++ 0#4 ++ kk := by
  unfold encXK
  apply BitVec.eq_of_getLsbD_eq
  intro k hk
  simp only [BitVec.getLsbD_and, BitVec.getLsbD_append]
  have : k < 16 := hk
  interval_cases k <;> simp

/-- A word of format `XY` or `XYN` keeps its category under the mask of the category alone. -/
theorem encXYN_category (c x y n : Nibble) : encXYN c x y n &&& 0xF000 = c ++ 0#12 := by
  unfold encXYN
  apply BitVec.eq_of_getLsbD_eq
  intro k hk
  simp only [BitVec.getLsbD_and, BitVec.getLsbD_append]
  have : k < 16 := hk
  interval_cases k <;> simp

/-- A word of format `XYS` or `XE` keeps its category and low nibble under the mask of both. -/
theorem encXYN_lowNibble (c x y n : Nibble) : encXYN c x y n &&& 0xF00F = c ++ 0#8 ++ n := by
  unfold encXYN
  apply BitVec.eq_of_getLsbD_eq
  intro k hk
  simp only [BitVec.getLsbD_and, BitVec.getLsbD_append]
  have : k < 16 := hk
  interval_cases k <;> simp

theorem cls : Statement .cls := show (0x00E0#16 &&& 0xF00F#16 = 0#16) by decide
theorem ret : Statement .ret := show (0x00EE#16 &&& 0xF00F#16 = 0x000E#16) by decide
theorem jp (nnn : Addr12) : Statement (.jp nnn) := encA_category _ _
theorem call (nnn : Addr12) : Statement (.call nnn) := encA_category _ _
theorem seImm (x : Nibble) (kk : Byte) : Statement (.seImm x kk) := encXK_category _ _ _
theorem sneImm (x : Nibble) (kk : Byte) : Statement (.sneImm x kk) := encXK_category _ _ _
theorem seReg (x y : Nibble) : Statement (.seReg x y) := encXYN_category _ _ _ _
theorem ldImm (x : Nibble) (kk : Byte) : Statement (.ldImm x kk) := encXK_category _ _ _
theorem addImm (x : Nibble) (kk : Byte) : Statement (.addImm x kk) := encXK_category _ _ _
theorem ldReg (x y : Nibble) : Statement (.ldReg x y) := encXYN_lowNibble _ _ _ _
theorem orReg (x y : Nibble) : Statement (.orReg x y) := encXYN_lowNibble _ _ _ _
theorem andReg (x y : Nibble) : Statement (.andReg x y) := encXYN_lowNibble _ _ _ _
theorem xorReg (x y : Nibble) : Statement (.xorReg x y) := encXYN_lowNibble _ _ _ _
theorem addReg (x y : Nibble) : Statement (.addReg x y) := encXYN_lowNibble _ _ _ _
theorem sub (x y : Nibble) : Statement (.sub x y) := encXYN_lowNibble _ _ _ _
theorem shr (x y : Nibble) : Statement (.shr x y) := encXYN_lowNibble _ _ _ _
theorem subn (x y : Nibble) : Statement (.subn x y) := encXYN_lowNibble _ _ _ _
theorem shl (x y : Nibble) : Statement (.shl x y) := encXYN_lowNibble _ _ _ _
theorem sneReg (x y : Nibble) : Statement (.sneReg x y) := encXYN_category _ _ _ _
theorem ldI (nnn : Addr12) : Statement (.ldI nnn) := encA_category _ _
theorem jpV0 (nnn : Addr12) : Statement (.jpV0 nnn) := encA_category _ _
theorem rnd (x : Nibble) (kk : Byte) : Statement (.rnd x kk) := encXK_category _ _ _
theorem drw (x y n : Nibble) : Statement (.drw x y n) := encXYN_category _ _ _ _
theorem skp (x : Nibble) : Statement (.skp x) := encXYN_lowNibble _ _ _ _
theorem sknp (x : Nibble) : Statement (.sknp x) := encXYN_lowNibble _ _ _ _
theorem ldVxDT (x : Nibble) : Statement (.ldVxDT x) := encXK_lowByte _ _ _
theorem ldVxK (x : Nibble) : Statement (.ldVxK x) := encXK_lowByte _ _ _
theorem ldDTVx (x : Nibble) : Statement (.ldDTVx x) := encXK_lowByte _ _ _
theorem ldSTVx (x : Nibble) : Statement (.ldSTVx x) := encXK_lowByte _ _ _
theorem addI (x : Nibble) : Statement (.addI x) := encXK_lowByte _ _ _
theorem ldF (x : Nibble) : Statement (.ldF x) := encXK_lowByte _ _ _
theorem ldB (x : Nibble) : Statement (.ldB x) := encXK_lowByte _ _ _
theorem ldMemVx (x : Nibble) : Statement (.ldMemVx x) := encXK_lowByte _ _ _
theorem ldVxMem (x : Nibble) : Statement (.ldVxMem x) := encXK_lowByte _ _ _

end Sys2Proof.Laws.EncodeFixed
end

