-- ==== Sys2Proof/Tests/Slice0.lean ====
section
/-! SUPPORT. Tests of the model and witnesses of the obligations. The expected results are those of
95_test_vectors.md (named by their ids), of R61's patterns, or worked out by hand from the rules named. -/

namespace Sys2Proof.Tests

open Sys2Proof Sys2Proof.Machine

/-! ### Helpers -/

/-- The outcome is a next state of which `p` holds. -/
def onNext (o : Out) (p : State → Bool) : Bool :=
  match o with
  | .next t => p t
  | _ => false

/-- One step of the word placed at pc. -/
def run (s : State) (w : Nat) : Out := step (s.withFetchWord 16 w)

/-- `s` with the registers listed set. -/
def setRegs (s : State) (l : List (Nibble × Byte)) : State :=
  l.foldl (fun t p => t.setV p.1 p.2) s

/-- The reset state with the registers listed set. -/
def regs (l : List (Nibble × Byte)) : State := setRegs State.reset l

/-- A next state without a fault, with pc as given. -/
def goesTo (pc : Word) (o : Out) : Bool := onNext o (fun t => t.fault.isNone && t.pc == pc)

/-- A next state without a fault, with the registers as listed. -/
def leaves (l : List (Nibble × Byte)) (o : Out) : Bool :=
  onNext o (fun t => t.fault.isNone && t.pc == 0x202 && l.all (fun p => t.getV p.1 == p.2))

/-- A next state that holds exactly this fault record and has pc at the faulting instruction. -/
def faults (k : FaultKind) (pc : Word) (w : Option Word) (a : Nat) (o : Out) : Bool :=
  onNext o (fun t => t.pc == pc && t.fault == some { kind := k, faultPc := pc, opcode := w, addr := some a })

/-- The bytes from an address on are as listed. -/
def holds (s : State) (a : Nat) (l : List Byte) : Bool := s.loadBytes a l.length == l

/-- Exactly the listed pixels are on. -/
def lit (l : List Nat) (s : State) : Bool :=
  s.display == l.foldl (fun d t => d ||| BitVec.twoPow 2048 t) 0

/-- The start of the display vectors: V1, V2, I = 0x300 and the sprite rows there, under a policy. -/
def sprite (edge : SpriteEdge) (col row : Byte) (rows : List Byte) : State :=
  let params : Params := { Config.defaultParams with spriteEdge := edge }
  let start : State := { regs [(1, col), (2, row)] with i := 0x300, params := params }
  start.storeBytes 0x300 rows

/-- The outcome is this refusal. -/
def refusedAs {α : Type} (r : Refusal) (o : Host.Outcome α Fault Refusal) : Bool :=
  match o with
  | .refused q => q == r
  | _ => false

/-- The load succeeded, with `p` of the state after it. -/
def loadsTo (p : State → Bool) (o : Host.Outcome (State × LoadStatus) Fault Refusal) : Bool :=
  match o with
  | .next (t, .ok) => p t
  | _ => false

/-- The reset state under `DECODE_ALIAS = REFUSE`. -/
def strict : State :=
  { State.reset with params := { Config.defaultParams with decodeAlias := .refuse } }

/-- Every pixel on, V1 = V2 = 7, DT = 2: the start of V-DEC. -/
def decStart : State :=
  { regs [(1, 7), (2, 7)] with dt := 2, display := BitVec.allOnes 2048 }

/-- Only the keys listed are pressed. -/
def keysDown (l : List Nat) (s : State) : State :=
  { s with keys := Vector.ofFn (fun k : Fin 16 => l.contains k.val) }

/-! ### Well-formedness -/

/-- V-LD-1, V-LD-2: an image of 3585 bytes is refused, one of 3584 is not (R128). An `Instr` has no
ill-formed term: its fields have the widths of R54. -/
theorem test_image_wellformed :
    imageWellFormed (List.replicate 3585 0) = false ∧ imageWellFormed (List.replicate 3584 0) = true ∧
    imageWellFormed [] = true := by
  simp only [imageWellFormed, maxImageLength, List.length_replicate, List.length_nil]; decide

/-- Each check of a well-formed state refuses an ill-formed one (R17, log entry 4). -/
theorem test_state_wellformed :
    State.reset.WellFormed ∧
    ¬State.WellFormed { State.reset with sp := 17 } ∧
    ¬State.WellFormed
      { State.reset with
        fault := some { kind := .memBounds, faultPc := 0, opcode := none, addr := some 0 } } ∧
    ¬State.WellFormed { State.reset with mem := [(0x300, 0)] } ∧
    ¬State.WellFormed { State.reset with mem := [(0x301, 1), (0x300, 1)] } ∧
    ¬State.WellFormed { State.reset with mem := [(0x1000, 1)] } := by decide

/-! ### Decoding: words written out from R61's patterns -/

theorem test_decode_display :
    decode 0b0000000011100000 = .ok .cls ∧ decode 0b1101000100101111 = .ok (.drw 1 2 15) := by decide

theorem test_decode_control_flow :
    decode 0b0000000011101110 = .ok .ret ∧ decode 0b0001001000110100 = .ok (.jp 0x234) ∧
    decode 0b0010111100000001 = .ok (.call 0xF01) ∧ decode 0b1011001100000101 = .ok (.jpV0 0x305) := by
  decide

theorem test_decode_skips :
    decode 0b0011000100100011 = .ok (.seImm 1 0x23) ∧ decode 0b0100000100100011 = .ok (.sneImm 1 0x23) ∧
    decode 0b0101000100100000 = .ok (.seReg 1 2) ∧ decode 0b1001000100100000 = .ok (.sneReg 1 2) ∧
    decode 0b1110001110011110 = .ok (.skp 3) ∧ decode 0b1110001110100001 = .ok (.sknp 3) := by decide

theorem test_decode_alu :
    decode 0b0110101000101011 = .ok (.ldImm 10 0x2B) ∧ decode 0b0111101000101011 = .ok (.addImm 10 0x2B) ∧
    decode 0b1000000100100000 = .ok (.ldReg 1 2) ∧ decode 0b1000000100100001 = .ok (.orReg 1 2) ∧
    decode 0b1000000100100010 = .ok (.andReg 1 2) ∧ decode 0b1000000100100011 = .ok (.xorReg 1 2) ∧
    decode 0b1000000100100100 = .ok (.addReg 1 2) ∧ decode 0b1000000100100101 = .ok (.sub 1 2) ∧
    decode 0b1000000100100110 = .ok (.shr 1 2) ∧ decode 0b1000000100100111 = .ok (.subn 1 2) ∧
    decode 0b1000000100101110 = .ok (.shl 1 2) ∧ decode 0b1100000100001111 = .ok (.rnd 1 0x0F) := by
  decide

theorem test_decode_index_memory :
    decode 0b1010000100100011 = .ok (.ldI 0x123) ∧ decode 0b1111000100011110 = .ok (.addI 1) ∧
    decode 0b1111000100101001 = .ok (.ldF 1) ∧ decode 0b1111000100110011 = .ok (.ldB 1) ∧
    decode 0b1111000101010101 = .ok (.ldMemVx 1) ∧ decode 0b1111000101100101 = .ok (.ldVxMem 1) := by
  decide

theorem test_decode_timers_keys :
    decode 0b1111001100000111 = .ok (.ldVxDT 3) ∧ decode 0b1111001100001010 = .ok (.ldVxK 3) ∧
    decode 0b1111001100010101 = .ok (.ldDTVx 3) ∧ decode 0b1111001100011000 = .ok (.ldSTVx 3) := by
  decide

/-- V-DEC-1 to V-DEC-6 as words: the unassigned ones (R64). -/
theorem test_decode_unassigned :
    decode 0x8008 = .error .category8 ∧ decode 0xF000 = .error .categoryF ∧
    decode 0xE19F = .error .categoryE ∧ decode 0x00E1 = .error .category0 ∧
    decode 0x0123 = .error .category0 ∧ decode 0x8FFF = .error .category8 := by decide

/-- R45, R53: the byte at the lower address is the high one; one byte is no word. -/
theorem test_decode_bytes :
    decodeBytes [0x61, 0x05, 0x80] = .ok (.ldImm 1 0x05, [0x80]) ∧
    decodeBytes [0x61] = .error .tooShort ∧
    decodeBytes [0x80, 0x08] = .error (.unassigned .category8) := by decide

theorem test_decode_table_word :
    decodeTableWord 16 0x00EE = some .ret ∧ decodeTableWord 16 0xFF65 = some (.ldVxMem 15) ∧
    decodeTableWord 16 0x8008 = none := by decide

/-! ### Steps: fetch, unassigned words, what DECODE_ALIAS does -/

/-- V-DEC-1, V-DEC-3, V-DEC-5: an unassigned word advances pc, ticks the timers and does nothing else. -/
theorem test_step_unassigned :
    (onNext (run decStart 0x8008) fun t =>
      t.pc == 0x202 && t.dt == 1 && t.v == decStart.v && t.display == decStart.display) = true ∧
    (onNext (run decStart 0xE19F) fun t => t.pc == 0x202 && t.dt == 1 && t.fault.isNone) = true ∧
    (onNext (run decStart 0x0123) fun t => t.pc == 0x202 && t.sp == 0 && t.dt == 1) = true := by
  decide +kernel

/-- V-DEC-7, V-DEC-8, both ways. -/
theorem test_step_aliased :
    (onNext (run decStart 0x0010) fun t => t.display == 0 && t.pc == 0x202 && t.dt == 1) = true ∧
    (onNext (run decStart 0x5121) fun t => t.pc == 0x204 && t.dt == 1) = true ∧
    refusedAs .aliasedWord (run strict 0x0010) = true ∧
    refusedAs .aliasedWord (run strict 0x5121) = true := by
  decide +kernel

/-- V-DEC-9, V-DEC-10, V-DEC-11, V-DEC-12: fetch at the end of memory, past it, and at an odd address. -/
theorem test_step_fetch :
    goesTo 0x200 (run { State.reset with pc := 0xFFE } 0x1200) = true ∧
    (onNext (step { State.reset with pc := 0xFFF, dt := 2 }) fun t =>
      t.dt == 2 && faults .fetchBounds 0xFFF none 0xFFF (.next t)) = true ∧
    faults .fetchBounds 0x1000 none 0x1000 (step { State.reset with pc := 0x1000 }) = true ∧
    (onNext (run { State.reset with pc := 0x201 } 0x6105) fun t =>
      t.pc == 0x203 && t.getV 1 == 5 && t.currentOpcode == 0x6105) = true := by decide

/-- R115, V-LD-7: a faulted machine has no step until it is constructed anew. -/
theorem test_step_faulted :
    (onNext (step { State.reset with pc := 0xFFF }) fun t =>
      refusedAs .machineFaulted (step t) && (construct t).fault.isNone && (construct t).pc == 0x200) =
      true := by decide +kernel

/-! ### Display -/

/-- V-DP-1. -/
theorem test_cls :
    (onNext (run decStart 0x00E0) fun t => lit [] t && t.pc == 0x202 && t.v == decStart.v) = true := by
  decide +kernel

/-- V-DP-2 to V-DP-8: the three policies at the right edge and at the bottom. -/
theorem test_drw_edges :
    (onNext (run (sprite .rawLinearFault 60 0 [0xFF]) 0xD121)
      (lit [60, 61, 62, 63, 64, 65, 66, 67])) = true ∧
    (onNext (run (sprite .clip 60 0 [0xFF]) 0xD121) (lit [60, 61, 62, 63])) = true ∧
    (onNext (run (sprite .wrap 60 0 [0xFF]) 0xD121) (lit [60, 61, 62, 63, 0, 1, 2, 3])) = true ∧
    faults .displayBounds 0x200 (some 0xD121) 2048 (run (sprite .rawLinearFault 60 31 [0xFF]) 0xD121) =
      true ∧
    (onNext (run (sprite .wrap 0 31 [0x80, 0x80]) 0xD122) (lit [1984, 0])) = true ∧
    (onNext (run (sprite .clip 0 31 [0x80, 0x80]) 0xD122) (lit [1984])) = true ∧
    (onNext (run (sprite .clip 70 40 [0xC0]) 0xD121) (lit [518, 519])) = true := by decide +kernel

/-- V-DP-9 to V-DP-13: clear bits are not checked, n = 0, rows past memory, collision, VF as a coordinate; and
by R72's pseudocode, a second draw over pixels that were on before the first (log entry 10). -/
theorem test_drw_checks :
    (onNext (run (sprite .rawLinearFault 0 31 [0x80, 0x00]) 0xD122) (lit [1984])) = true ∧
    (onNext (run { decStart with i := 0xFFFF } 0xD120) fun t =>
      t.fault.isNone && t.display == decStart.display && t.getV 0xF == 0) = true ∧
    faults .memBounds 0x200 (some 0xD123) 0x1000 (run { State.reset with i := 0xFFE } 0xD123) = true ∧
    (onNext (run { sprite .rawLinearFault 0 0 [0x81] with display := 3 } 0xD121) fun t =>
      lit [1, 7] t && t.getV 0xF == 1) = true ∧
    (onNext (run { sprite .rawLinearFault 0 0 [0x81] with display := 0x81 } 0xD121) fun t => lit [] t &&
      onNext (exec (.drw 1 2 1) t) (fun u => lit [0, 7] u && u.getV 0xF == 0)) = true ∧
    (onNext (run ((sprite .rawLinearFault 0 1 [0xF0]).setV 0xF 8) 0xDF21) fun t =>
      lit [72, 73, 74, 75] t && t.getV 0xF == 0) = true := by decide +kernel

/-! ### Control flow -/

/-- V-CF-1 to V-CF-5. -/
theorem test_jp_call :
    goesTo 0x234 (run State.reset 0x1234) = true ∧ goesTo 0xFFF (run State.reset 0x1FFF) = true ∧
    (onNext (run { State.reset with sp := 3 } 0x2FFF) fun t =>
      t.stack[3] == 0x202 && t.stack[2] == 0 && t.sp == 4 && t.pc == 0xFFF) = true ∧
    (onNext (run { State.reset with sp := 16 } 0x2300) fun t => t.sp == 16 &&
      faults .stackOverflow 0x200 (some 0x2300) 16 (.next t)) = true := by decide

/-- V-CF-6, V-CF-7. -/
theorem test_ret :
    (onNext (run { State.reset with
        sp := 1, pc := 0x300, stack := (Vector.replicate 16 0).set 0 0x202 } 0x00EE) fun t =>
      t.sp == 0 && t.pc == 0x202 && t.stack[0] == 0x202 && t.fault.isNone) = true ∧
    faults .stackUnderflow 0x200 (some 0x00EE) 0 (run State.reset 0x00EE) = true := by decide

/-- V-CF-8 to V-CF-11: always V[0], no wrap at 0x1000. -/
theorem test_jp_v0 :
    goesTo 0x310 (run (regs [(0, 0x10)]) 0xB300) = true ∧
    goesTo 0x1010 (run (regs [(0, 0x90)]) 0xBF80) = true ∧
    goesTo 0x10FE (run (regs [(0, 0xFF)]) 0xBFFF) = true ∧
    goesTo 0x501 (run (regs [(0, 1), (5, 0x40)]) 0xB500) = true := by decide

/-! ### Skips -/

/-- V-SK-1 to V-SK-5 and V-SK-15. -/
theorem test_skips_imm :
    goesTo 0x204 (run (regs [(1, 0x12)]) 0x3112) = true ∧
    goesTo 0x202 (run (regs [(1, 0x13)]) 0x3112) = true ∧
    goesTo 0x204 (run State.reset 0x3F00) = true ∧
    goesTo 0x204 (run (regs [(1, 0x12)]) 0x4113) = true ∧
    goesTo 0x202 (run (regs [(1, 0x12)]) 0x4112) = true ∧
    goesTo 0x1000 (run { State.reset with pc := 0xFFC } 0x3000) = true := by decide

/-- V-SK-6 to V-SK-10. -/
theorem test_skips_reg :
    goesTo 0x204 (run (regs [(1, 7), (2, 7)]) 0x5120) = true ∧
    goesTo 0x202 (run (regs [(1, 7), (2, 8)]) 0x5120) = true ∧
    goesTo 0x204 (run (regs [(1, 7), (2, 8)]) 0x9120) = true ∧
    goesTo 0x202 (run (regs [(1, 7)]) 0x9110) = true := by decide

/-- V-SK-11 to V-SK-14. -/
theorem test_skips_key :
    goesTo 0x204 (run (keysDown [5] (regs [(3, 5)])) 0xE39E) = true ∧
    goesTo 0x202 (run (keysDown [4, 6] (regs [(3, 5)])) 0xE39E) = true ∧
    goesTo 0x202 (run (keysDown [5] (regs [(3, 5)])) 0xE3A1) = true ∧
    goesTo 0x204 (run (regs [(1, 0x0F)]) 0xE1A1) = true ∧
    faults .keyIndex 0x200 (some 0xE19E) 0x10 (run (regs [(1, 0x10)]) 0xE19E) = true := by decide

/-! ### Arithmetic and logic -/

/-- V-ALU-1 to V-ALU-8. -/
theorem test_loads_and_logic :
    leaves [(10, 0x2B)] (run State.reset 0x6A2B) = true ∧
    leaves [(1, 0), (15, 0)] (run (regs [(1, 0xFF)]) 0x7101) = true ∧
    leaves [(15, 0)] (run (regs [(15, 1)]) 0x7FFF) = true ∧
    leaves [(1, 0x44), (2, 0x44)] (run (regs [(2, 0x44)]) 0x8120) = true ∧
    leaves [(1, 0xFF), (15, 9)] (run (regs [(1, 0x0F), (2, 0xF0), (15, 9)]) 0x8121) = true ∧
    leaves [(1, 0x0C)] (run (regs [(1, 0x3C), (2, 0x0F)]) 0x8122) = true ∧
    leaves [(1, 0)] (run (regs [(1, 0x5A)]) 0x8113) = true := by decide

/-- V-ALU-9, V-ALU-11, V-ALU-12, V-ALU-23 to V-ALU-25. -/
theorem test_add_reg :
    leaves [(1, 0), (15, 1)] (run (regs [(1, 0xFF), (2, 1)]) 0x8124) = true ∧
    leaves [(1, 2), (15, 1)] (run (regs [(1, 0x81)]) 0x8114) = true ∧
    leaves [(0, 0x0F), (15, 0)] (run (regs [(0, 0x0A), (1, 5), (15, 1)]) 0x8014) = true ∧
    leaves [(15, 1)] (run (regs [(15, 0xFF), (2, 2)]) 0x8F24) = true ∧
    leaves [(1, 0), (15, 1)] (run (regs [(1, 0xFF), (15, 1)]) 0x81F4) = true ∧
    leaves [(15, 0x20)] (run (regs [(15, 0x90)]) 0x8FF4) = true := by decide

/-- V-ALU-13 to V-ALU-15, V-ALU-26 to V-ALU-29. -/
theorem test_sub :
    leaves [(1, 0xFE), (15, 0)] (run (regs [(1, 3), (2, 5)]) 0x8125) = true ∧
    leaves [(1, 2), (15, 1)] (run (regs [(1, 5), (2, 3)]) 0x8125) = true ∧
    leaves [(1, 0), (15, 0)] (run (regs [(1, 5), (2, 5), (15, 9)]) 0x8125) = true ∧
    leaves [(15, 0xFE)] (run (regs [(15, 5), (2, 3)]) 0x8F25) = true ∧
    leaves [(15, 1), (1, 0x0F)] (run (regs [(1, 0x10), (15, 5)]) 0x81F5) = true ∧
    leaves [(15, 0), (1, 3)] (run (regs [(1, 3), (15, 5)]) 0x81F5) = true ∧
    leaves [(15, 0)] (run (regs [(15, 7)]) 0x8FF5) = true := by decide

/-- V-ALU-17, V-ALU-18, V-ALU-30 to V-ALU-33. -/
theorem test_subn :
    leaves [(1, 0xFE), (15, 0)] (run (regs [(1, 5), (2, 3)]) 0x8127) = true ∧
    leaves [(1, 0), (15, 0)] (run (regs [(1, 5), (2, 5), (15, 9)]) 0x8127) = true ∧
    leaves [(15, 4)] (run (regs [(15, 3), (2, 5)]) 0x8F27) = true ∧
    leaves [(15, 1), (1, 0xFE)] (run (regs [(1, 3), (15, 5)]) 0x81F7) = true ∧
    leaves [(15, 0), (1, 0xF0)] (run (regs [(1, 0x10), (15, 5)]) 0x81F7) = true ∧
    leaves [(15, 0)] (run (regs [(15, 7)]) 0x8FF7) = true := by decide

/-- V-ALU-19 to V-ALU-22, V-ALU-34 to V-ALU-36. -/
theorem test_shifts :
    leaves [(1, 2), (15, 1), (2, 0xFF)] (run (regs [(1, 5), (2, 0xFF)]) 0x8126) = true ∧
    leaves [(1, 0), (15, 1)] (run (regs [(1, 1)]) 0x8106) = true ∧
    leaves [(1, 0), (15, 1)] (run (regs [(1, 0x80)]) 0x810E) = true ∧
    leaves [(1, 0x80), (15, 0)] (run (regs [(1, 0x40), (15, 1)]) 0x810E) = true ∧
    leaves [(15, 0)] (run (regs [(15, 3)]) 0x8F06) = true ∧
    leaves [(15, 2)] (run (regs [(15, 0x81)]) 0x8F0E) = true ∧
    leaves [(15, 0)] (run (regs [(15, 0x7F)]) 0x8F0E) = true := by decide

/-- V-ALU-38: whatever byte is drawn, C100 clears V1; one draw is used up (R99). -/
theorem test_rnd :
    ∃ t, exec (.rnd 1 0) State.reset = .next t ∧ t.getV 1 = 0 ∧ t.rng = 1 := by
  refine ⟨_, rfl, ?_, rfl⟩
  simp [State.draw, State.setV, State.getV]

/-! ### Index register and memory -/

/-- V-IM-1 to V-IM-7. -/
theorem test_index :
    (onNext (run State.reset 0xA123) fun t => t.i == 0x123) = true ∧
    (onNext (run { regs [(2, 0x10)] with i := 0x300 } 0xF21E) fun t => t.i == 0x310) = true ∧
    (onNext (run { regs [(1, 1), (15, 9)] with i := 0xFFFF } 0xF11E) fun t =>
      t.i == 0 && t.getV 0xF == 9) = true ∧
    (onNext (run { regs [(1, 1)] with i := 0x0FFF } 0xF11E) fun t =>
      t.i == 0x1000 && t.fault.isNone) = true ∧
    (onNext (run (regs [(1, 0x0A)]) 0xF129) fun t => t.i == 0x082) = true ∧
    (onNext (run (regs [(1, 0x10)]) 0xF129) fun t => t.i == 0x0A0) = true ∧
    (onNext (run (regs [(1, 0xFF)]) 0xF129) fun t => t.i == 0x54B) = true := by decide

/-- V-SRC-4, V-IM-8 to V-IM-10. -/
theorem test_decimal :
    (onNext (run { regs [(1, 0x7B)] with i := 0x300 } 0xF133) fun t =>
      holds t 0x2FF [0, 1, 2, 3, 0] && t.i == 0x300) = true ∧
    (onNext (run ({ State.reset with i := 0x300 }.storeBytes 0x300 [9, 9, 9]) 0xF133) fun t =>
      holds t 0x300 [0, 0, 0] && t.mem.length == 2) = true ∧
    (onNext (run { regs [(1, 0xFF)] with i := 0xFFD } 0xF133) fun t => holds t 0xFFD [2, 5, 5]) = true ∧
    (onNext (run { regs [(1, 0xFF)] with i := 0xFFE } 0xF133) fun t => holds t 0xFFE [0, 0] &&
      faults .memBounds 0x200 (some 0xF133) 0x1000 (.next t)) = true := by decide

/-- V-IM-11 to V-IM-14, V-IM-16. -/
theorem test_register_store :
    (onNext (run { regs [(0, 1), (1, 2), (2, 3), (3, 4)] with i := 0x300 } 0xF255) fun t =>
      holds t 0x300 [1, 2, 3, 0] && t.i == 0x300) = true ∧
    (onNext (run { regs [(0, 0xAB)] with i := 0xFFF } 0xF055) fun t => holds t 0xFFF [0xAB]) = true ∧
    (onNext (run { regs [(0, 0xAB)] with i := 0xFFF } 0xF155) fun t => holds t 0xFFF [0] &&
      faults .memBounds 0x200 (some 0xF155) 0x1000 (.next t)) = true ∧
    faults .memBounds 0x200 (some 0xF055) 0xFFFF (run { State.reset with i := 0xFFFF } 0xF055) = true ∧
    (onNext (run { regs [(1, 0x99)] with i := 0x050 } 0xF155) fun t =>
      holds t 0x04F [0, 0, 0x99, 0x90]) = true := by decide

/-- V-IM-15, and a load that stops at V2 (R106). -/
theorem test_register_load :
    leaves [(0, 1), (1, 2), (14, 15), (15, 16)]
      (run ({ State.reset with i := 0x300 }.storeBytes 0x300
        [1, 2, 3, 4, 5, 6, 7, 8, 9, 10, 11, 12, 13, 14, 15, 16]) 0xFF65) = true ∧
    (onNext (run { regs [(3, 7)] with i := 0x050 } 0xF265) fun t =>
      t.getV 0 == 0xF0 && t.getV 1 == 0x90 && t.getV 2 == 0x90 && t.getV 3 == 7 && t.i == 0x050) =
      true := by decide +kernel

/-! ### Timers and keys -/

/-- V-TK-1 to V-TK-7. -/
theorem test_timers :
    (onNext (run { State.reset with dt := 5 } 0xF307) fun t => t.getV 3 == 5 && t.dt == 4) = true ∧
    (onNext (run (regs [(0, 9)]) 0xF007) fun t => t.getV 0 == 0 && t.dt == 0) = true ∧
    (onNext (run (regs [(1, 5)]) 0xF115) fun t => t.dt == 4) = true ∧
    (onNext (run (regs [(0, 1)]) 0xF015) fun t => t.dt == 0) = true ∧
    (onNext (run (regs [(1, 3)]) 0xF118) fun t => t.st == 2 && soundOn t) = true ∧
    (onNext (run (regs [(0, 1)]) 0xF018) fun t => t.st == 0 && !soundOn t) = true := by decide

/-- V-TK-8, V-TK-9, V-TK-10. -/
theorem test_key_wait :
    (onNext (run { regs [(2, 0x55)] with pc := 0x206, dt := 3, st := 1 } 0xF20A) fun t =>
      t.pc == 0x206 && t.getV 2 == 0x55 && t.dt == 2 && t.st == 0) = true ∧
    (onNext (run (keysDown [3, 7] { State.reset with pc := 0x206, dt := 3 }) 0xF20A) fun t =>
      t.getV 2 == 3 && t.pc == 0x208 && t.dt == 2) = true ∧
    (onNext (run (keysDown [15] { State.reset with pc := 0x206 }) 0xFF0A) fun t =>
      t.getV 15 == 15 && t.pc == 0x208) = true := by decide

/-! ### Load, outputs, font -/

/-- V-LD-3, V-LD-4, V-LD-5, and a load of two bytes (R128). -/
theorem test_load :
    loadsTo (fun t => holds t 0x1FF [0, 0x61, 0x05, 0] && t.loaded) (load [0x61, 0x05] State.reset) =
      true ∧
    loadsTo (fun t => t.mem == [] && t.loaded) (load [] State.reset) = true ∧
    refusedAs .lateLoad (load [1] { State.reset with loaded := true }) = true ∧
    refusedAs .lateLoad (load [1] { State.reset with started := true }) = true := by decide

/-- R34: the first and the last glyph of the default font, and zero around the font. -/
theorem test_font :
    holds State.reset 0x04F [0, 0xF0, 0x90, 0x90, 0x90, 0xF0, 0x20] = true ∧
    holds State.reset 0x09B [0xF0, 0x80, 0xF0, 0x80, 0x80, 0] = true := by decide

/-- R28, D15: the host sees all ones for a lit pixel. -/
theorem test_host_outputs :
    hostPixel 32 true = 0xFFFFFFFF ∧ hostPixel 32 false = 0 ∧
    writeKeys (Vector.replicate 16 true) State.reset =
      { State.reset with keys := Vector.replicate 16 true } := ⟨by decide, rfl, rfl⟩

/-! ### Witnesses: states and operands that meet the hypotheses of the obligations together

A clause whose hypotheses are of one form is witnessed at the boundary values of its range. The tests above
witness results; here stand the hypotheses. -/

/-- The reset state with a word at pc. -/
def placed (w : Nat) : State := State.reset.withFetchWord 16 w

/-- The state with a fault record. -/
def faulted : State :=
  { State.reset with
    started := true,
    fault := some { kind := .memBounds, faultPc := 0x200, opcode := some 0xF155, addr := some 0x1000 } }

/-- The word where pc points. -/
def wordAtPc (s : State) : Word := wordOfBytes (s.readByte s.pc.toNat) (s.readByte (s.pc.toNat + 1))

/-- ResetValues, both ways in. -/
theorem witness_ResetValues :
    (State.reset = State.reset ∨ ∃ s, State.reset = construct s) ∧
    (construct faulted = State.reset ∨ ∃ s, construct faulted = construct s) :=
  ⟨.inl rfl, .inr ⟨faulted, rfl⟩⟩

/-- LoadCopiesOrRejects: refused late in each of three ways; 3585 bytes; 3584 and none. -/
theorem witness_LoadCopiesOrRejects :
    faulted.fault ≠ none ∧ { State.reset with started := true }.started = true ∧
    { State.reset with loaded := true }.loaded = true ∧
    (State.reset.fault = none ∧ State.reset.started = false ∧ State.reset.loaded = false) ∧
    3584 < (List.replicate 3585 (1 : Byte)).length ∧ (List.replicate 3584 (1 : Byte)).length ≤ 3584 ∧
    ([] : List Byte).length ≤ 3584 := by
  simp only [List.length_replicate, List.length_nil]; decide

/-- StepRunsDecodedInstruction, and each outcome its match speaks of but a refusal, which no instruction
gives: a state without a fault (JP), one with a fault (RET at SP = 0), a stop (CALL at SP = 17). -/
theorem witness_StepRunsDecodedInstruction :
    ((placed 0x1234).fault = none ∧ (placed 0x1234).pc.toNat ≤ 0xFFE ∧ 0x1234 = wordAtPc (placed 0x1234) ∧
      ¬(isAliasedWord 0x1234 = true ∧ (placed 0x1234).params.decodeAlias = .refuse) ∧
      decode 0x1234 = .ok (.jp 0x234)) ∧
    (0x00EE = wordAtPc (placed 0x00EE) ∧ decode 0x00EE = .ok .ret ∧
      onNext (exec .ret (placed 0x00EE)) (fun t => t.fault.isSome) = true) ∧
    exec (.call 0x300) { State.reset with sp := 17 } = .fault .stackPointerRange :=
  ⟨by decide, by decide, rfl⟩

/-- UnassignedWordIsNoOp: words at the ends of each range, and one of them at pc. -/
theorem witness_UnassignedWordIsNoOp :
    (∀ w ∈ ([0x0001, 0x000D, 0x0FFF, 0x8008, 0x800D, 0x8FFF, 0xE000, 0xE00F, 0xF000, 0xF0FF] : List Word),
      ∃ why, decode w = .error why) ∧
    (∀ w ∈ ([0x00E0, 0x00EE, 0x8007, 0x800E, 0xE001, 0xE00E, 0xF007, 0xF065] : List Word),
      ∃ i, decode w = .ok i) ∧
    ((placed 0x8008).fault = none ∧ (placed 0x8008).pc.toNat ≤ 0xFFE ∧
      0x8008 = wordAtPc (placed 0x8008)) := by
  refine ⟨?_, ?_, by decide⟩ <;>
    simp only [List.forall_mem_cons, List.not_mem_nil, false_implies, implies_true, and_true] <;>
    exact ⟨⟨_, rfl⟩, ⟨_, rfl⟩, ⟨_, rfl⟩, ⟨_, rfl⟩, by
      first
        | exact ⟨⟨_, rfl⟩, ⟨_, rfl⟩, ⟨_, rfl⟩, ⟨_, rfl⟩, ⟨_, rfl⟩, ⟨_, rfl⟩⟩
        | exact ⟨⟨_, rfl⟩, ⟨_, rfl⟩, ⟨_, rfl⟩, ⟨_, rfl⟩⟩⟩

/-- FetchPastMemoryFaults, at both ends of its range. -/
theorem witness_FetchPastMemoryFaults :
    (State.reset.fault = none ∧ 0xFFF ≤ { State.reset with pc := 0xFFF }.pc.toNat) ∧
    0xFFF ≤ { State.reset with pc := 0xFFFF }.pc.toNat := by decide

theorem witness_FaultedMachineHasNoStep : faulted.fault ≠ none := by decide

/-- TimersTickOncePerStep: a step that loads each timer, one that loads neither. -/
theorem witness_TimersTickOncePerStep :
    ((onNext (step (placed 0xF115)) fun t => t.fault.isNone) = true ∧
      decode (wordAtPc (placed 0xF115)) = .ok (.ldDTVx 1)) ∧
    ((onNext (step (placed 0xF118)) fun t => t.fault.isNone) = true ∧
      decode (wordAtPc (placed 0xF118)) = .ok (.ldSTVx 1)) ∧
    ((onNext (step (placed 0x1234)) fun t => t.fault.isNone) = true ∧
      decode (wordAtPc (placed 0x1234)) = .ok (.jp 0x234)) := by decide

theorem witness_PlacedWordIsFetched :
    { State.reset with pc := 0xFFE }.pc.toNat ≤ 0xFFE ∧ { State.reset with pc := 0 }.pc.toNat ≤ 0xFFE := by
  decide

theorem witness_EncodeDecodeRoundTrip :
    (decode 0x9120 = .ok (.sneReg 1 2) ∧ isAliasedWord 0x9120 = false) ∧
    (decode 0xFF65 = .ok (.ldVxMem 15) ∧ isAliasedWord 0xFF65 = false) := by decide

/-- AliasedWords: a word of each kind R62 lists, the words beside them that are not, and a refused step. -/
theorem witness_AliasedWords :
    ([0x0000, 0x010E, 0x0FEE, 0x5121, 0x512F, 0x9121, 0x912F, 0xE18E, 0xE1AE, 0xE191, 0xE1B1].all
      isAliasedWord) = true ∧
    ([0x00E0, 0x00EE, 0x5120, 0x9120, 0xE19E, 0xE1A1, 0x0001].any isAliasedWord) = false ∧
    (strict.params.decodeAlias = .refuse ∧ strict.fault = none ∧ strict.pc.toNat ≤ 0xFFE ∧
      0x0000 = wordAtPc strict) := by decide

/-- StepKeepsWellFormed: well-formed states of each of its three outcomes. -/
theorem witness_StepKeepsWellFormed :
    State.reset.WellFormed ∧ faulted.WellFormed ∧ strict.WellFormed ∧
    { State.reset with sp := 16 }.WellFormed := by decide

theorem witness_EveryStepCompletes :
    { State.reset with sp := 16 }.sp.toNat ≤ 16 ∧ State.reset.fault = none ∧
    State.reset.params.decodeAlias = .execute := by decide

/-- StepKeepsPcBounded: a bounded state that steps, at the largest pc that fetches, and past memory. -/
theorem witness_StepKeepsPcBounded :
    ({ regs [(0, 0xFF)] with pc := 0xFFE }.PcBounded ∧
      goesTo 0x10FE (run { regs [(0, 0xFF)] with pc := 0xFFE } 0xBFFF) = true) ∧
    ({ State.reset with pc := 0x10FE }.PcBounded ∧
      onNext (step { State.reset with pc := 0x10FE }) (fun t => t.fault.isSome) = true) := by decide

/-- FaultsArePrecise: a step that faults at fetch, one that faults in its execute stage. -/
theorem witness_FaultsArePrecise :
    faults .fetchBounds 0xFFF none 0xFFF (step { State.reset with pc := 0xFFF }) = true ∧
    faults .stackUnderflow 0x200 (some 0x00EE) 0 (step (placed 0x00EE)) = true := by decide

theorem witness_OtherInstructionsNeverFault :
    mayFault (.jp 0x234) = false ∧ mayFault (.ldVxK 3) = false ∧ mayFault (.rnd 1 2) = false := by decide

/-- OnlyNamedInstructionsWrite: an instruction that answers a next state and writes nothing the clauses
name; its clauses hold of it together. -/
theorem witness_OnlyNamedInstructionsWrite :
    goesTo 0x234 (exec (.jp 0x234) State.reset) = true ∧ mayWriteV (.jp 0x234) 0xF = false ∧
    (∀ x, Instr.jp 0x234 ≠ .ldB x ∧ Instr.jp 0x234 ≠ .ldMemVx x) ∧
    (∀ n x, Instr.jp 0x234 ≠ .ldI n ∧ Instr.jp 0x234 ≠ .addI x ∧ Instr.jp 0x234 ≠ .ldF x) ∧
    (∀ n, Instr.jp 0x234 ≠ .call n ∧ Instr.jp 0x234 ≠ .ret) ∧
    (∀ x, Instr.jp 0x234 ≠ .ldDTVx x) ∧ (∀ x, Instr.jp 0x234 ≠ .ldSTVx x) ∧
    (∀ x y n, Instr.jp 0x234 ≠ .cls ∧ Instr.jp 0x234 ≠ .drw x y n) ∧
    (∀ x k, Instr.jp 0x234 ≠ .rnd x k) :=
  ⟨by decide, by decide, fun _ => ⟨nofun, nofun⟩, fun _ _ => ⟨nofun, nofun, nofun⟩,
    fun _ => ⟨nofun, nofun⟩, nofun, nofun, fun _ _ _ => ⟨nofun, nofun⟩, nofun⟩

theorem witness_StepKeepsHostInputs : goesTo 0x234 (step (placed 0x1234)) = true := by decide

theorem witness_IllFormedStackPointerStops :
    16 < { State.reset with sp := 17 }.sp.toNat ∧ 16 < { State.reset with sp := 255 }.sp.toNat := by decide

/-- SpriteTargets: each clause where it meets the next, and two bits of one sprite that share no pixel. -/
theorem witness_SpriteTargets :
    ((31 + 0) * 64 + (63 + 0) ≤ 2047 ∧ 2047 < (31 + 0) * 64 + (63 + 1)) ∧
    (63 < 63 + 1 ∧ 31 < 31 + 1 ∧ 56 + 7 ≤ 63 ∧ 17 + 14 ≤ 31) ∧
    spriteTarget .rawLinearFault 63 31 0 0 = .pixel 2047 ∧
    spriteTarget .wrap 63 31 14 7 = .pixel (13 * 64 + 6) := by decide

/-- The bits of a sprite whose rows stay above the bottom never land past the display. -/
theorem drawAllowed_of_inside (s : State) (x y n : Nibble) (hm : n.toNat = 0 ∨ s.i.toNat + n.toNat ≤ 0x1000)
    (hy : (s.getV y).toNat % 32 + n.toNat ≤ 31) : DrawAllowed s x y n := by
  refine ⟨hm, fun i j t hi hj _ => ?_⟩
  unfold spriteLanding spriteTarget
  split
  · rw [if_neg (by omega)]; exact nofun
  · split <;> exact nofun
  · exact nofun

/-- DrawTogglesSprite: no rows at I = 0xFFFF; 15 rows that end at the end of memory; a set bit that covers a
pixel that is off, one that covers a pixel that is on, and a pixel covered by none. -/
theorem witness_DrawTogglesSprite :
    DrawAllowed { State.reset with i := 0xFFFF } 1 2 0 ∧ DrawAllowed { State.reset with i := 0xFF1 } 1 2 15 ∧
    DrawAllowed (sprite .clip 0 0 [0x81]) 1 2 1 ∧
    (SpriteCovers (sprite .clip 0 0 [0x81]) 1 2 1 0 ∧ pixelOn (sprite .clip 0 0 [0x81]).display 0 = false) ∧
    (SpriteCovers { sprite .clip 0 0 [0x81] with display := 1 } 1 2 1 0 ∧
      pixelOn (1 : Display) 0 = true) ∧
    (∀ u, ¬SpriteCovers { State.reset with i := 0xFFFF } 1 2 0 u) :=
  ⟨drawAllowed_of_inside _ _ _ _ (.inl rfl) (by decide),
    drawAllowed_of_inside _ _ _ _ (.inr (by decide)) (by decide),
    drawAllowed_of_inside _ _ _ _ (.inr (by decide)) (by decide),
    ⟨⟨0, 0, by decide, by decide, by unfold SpriteBitSet; decide, by decide⟩, by decide +kernel⟩,
    ⟨⟨0, 0, by decide, by decide, by unfold SpriteBitSet; decide, by decide⟩, by decide +kernel⟩,
    fun _ ⟨_, _, h, _⟩ => absurd h (Nat.not_lt_zero _)⟩

/-- DrawFaults: one row too many past memory; V-DP-5, where bit 4 of row 0 is the first past the display. -/
theorem witness_DrawFaults :
    (0 < (3 : Nibble).toNat ∧ 0x1000 < { State.reset with i := 0xFFE }.i.toNat + (3 : Nibble).toNat) ∧
    (0x1000 < { State.reset with i := 0xFFFF }.i.toNat + (1 : Nibble).toNat) ∧
    ((sprite .rawLinearFault 60 31 [0xFF]).i.toNat + (1 : Nibble).toNat ≤ 0x1000 ∧
      SpriteBitSet (sprite .rawLinearFault 60 31 [0xFF]) 0 4 ∧
      spriteLanding (sprite .rawLinearFault 60 31 [0xFF]) 1 2 0 4 = .out 2048 ∧
      ∀ i' j' t', j' < 8 → (i' < 0 ∨ (i' = 0 ∧ j' < 4)) →
        SpriteBitSet (sprite .rawLinearFault 60 31 [0xFF]) i' j' →
        spriteLanding (sprite .rawLinearFault 60 31 [0xFF]) 1 2 i' j' ≠ .out t') := by
  refine ⟨by decide, by decide, by decide, by unfold SpriteBitSet; decide, by decide, ?_⟩
  intro i' j' t' _ h _
  obtain ⟨rfl, hj⟩ : i' = 0 ∧ j' < 4 := by omega
  have : (∀ k : Fin 4, spriteLanding (sprite .rawLinearFault 60 31 [0xFF]) 1 2 0 k = .pixel (2044 + k)) := by
    decide
  rw [this ⟨j', hj⟩]; exact nofun

/-- The sprite of one row 81 at the top left, over a display on which just its two pixels are on. -/
def litSprite : State := { sprite .clip 0 0 [0x81] with display := 0x81 }

/-- Both pixels that `litSprite` covers are on; the first draw turns them off, the second on again. -/
theorem litSprite_covers_lit (p : Nat) (h : SpriteCovers litSprite 1 2 1 p) :
    pixelOn litSprite.display p = true := by
  obtain ⟨i, j, hi, hj, hbit, hland⟩ := h
  obtain rfl : i = 0 := by simpa using hi
  have key : ∀ k : Fin 8, (litSprite.readByte litSprite.i.toNat).getLsbD (7 - k) = true →
      k.val ∈ [0, 7] ∧ spriteLanding litSprite 1 2 0 k = .pixel k := by decide
  obtain ⟨hj', hl⟩ := key ⟨j, hj⟩ hbit
  obtain rfl : p = j := by simpa using hland.symm.trans hl
  have lit : ∀ k ∈ [0, 7], pixelOn litSprite.display k = true := by decide +kernel
  exact lit _ hj'

/-- DrawTwiceRestoresDisplay: a sprite that covers pixels that are off; one that covers pixels that are all on
before the first draw (VF is 0 after the second); one that covers none. -/
theorem witness_DrawTwiceRestoresDisplay :
    ((1 : Nibble) ≠ 0xF ∧ (2 : Nibble) ≠ 0xF ∧ DrawAllowed (sprite .clip 0 0 [0x81]) 1 2 1) ∧
    (SpriteCovers (sprite .clip 0 0 [0x81]) 1 2 1 0 ∧ pixelOn (sprite .clip 0 0 [0x81]).display 0 = false) ∧
    (DrawAllowed litSprite 1 2 1 ∧ SpriteCovers litSprite 1 2 1 0 ∧
      ∀ p, SpriteCovers litSprite 1 2 1 p → pixelOn litSprite.display p = true) ∧
    DrawAllowed { State.reset with i := 0xFFFF } 1 2 0 ∧
    (∀ p, SpriteCovers { State.reset with i := 0xFFFF } 1 2 0 p → pixelOn State.reset.display p = true) :=
  ⟨⟨by decide, by decide, witness_DrawTogglesSprite.2.2.1⟩, witness_DrawTogglesSprite.2.2.2.1,
    ⟨drawAllowed_of_inside _ _ _ _ (.inr (by decide)) (by decide),
      ⟨0, 0, by decide, by decide, by unfold SpriteBitSet; decide, by decide⟩, litSprite_covers_lit⟩,
    witness_DrawTogglesSprite.1, fun p h => absurd h (witness_DrawTogglesSprite.2.2.2.2.2 p)⟩

/-- The words that the decoding clauses of the result statements speak of, at the ends of their fields. -/
theorem witness_field_clauses :
    (fieldCat 0x00E0 = 0x0 ∧ fieldN 0x00E0 = 0x0) ∧ (fieldCat 0x00EE = 0x0 ∧ fieldN 0x00EE = 0xE) ∧
    (fieldCat 0x1000 = 0x1 ∧ fieldCat 0x2FFF = 0x2 ∧ fieldCat 0x3000 = 0x3 ∧ fieldCat 0x4FFF = 0x4 ∧
      fieldCat 0x5FF0 = 0x5 ∧ fieldCat 0x6000 = 0x6 ∧ fieldCat 0x7FFF = 0x7 ∧ fieldCat 0x9FF0 = 0x9 ∧
      fieldCat 0xA000 = 0xA ∧ fieldCat 0xBFFF = 0xB ∧ fieldCat 0xCFFF = 0xC) ∧
    (fieldCat 0x8000 = 0x8 ∧ fieldN 0x8000 = 0x0 ∧ fieldN 0x8FF1 = 0x1 ∧ fieldN 0x8FF2 = 0x2 ∧
      fieldN 0x8FF3 = 0x3 ∧ fieldN 0x8FF4 = 0x4 ∧ fieldN 0x8FF5 = 0x5 ∧ fieldN 0x8FF6 = 0x6 ∧
      fieldN 0x8FF7 = 0x7 ∧ fieldN 0x8FFE = 0xE) ∧
    (fieldCat 0xEF9E = 0xE ∧ fieldN 0xEF9E = 0xE ∧ fieldCat 0xEFA1 = 0xE ∧ fieldN 0xEFA1 = 0x1) ∧
    (fieldCat 0xFF07 = 0xF ∧ fieldKK 0xFF07 = 0x07 ∧ fieldKK 0xFF0A = 0x0A ∧ fieldKK 0xFF15 = 0x15 ∧
      fieldKK 0xFF18 = 0x18 ∧ fieldKK 0xFF1E = 0x1E ∧ fieldKK 0xFF29 = 0x29 ∧ fieldKK 0xFF33 = 0x33 ∧
      fieldKK 0xFF55 = 0x55 ∧ fieldKK 0xFF65 = 0x65) := by decide

/-- CallPushesAndJumps and ReturnUndoesCall: SP at 0, 15 and 16. -/
theorem witness_CallPushesAndJumps :
    State.reset.sp.toNat < 16 ∧ { State.reset with sp := 15 }.sp.toNat < 16 ∧
    { State.reset with sp := 16 }.sp.toNat = 16 := by decide

/-- RetPopsPc: SP at 0, 1 and 16. -/
theorem witness_RetPopsPc :
    State.reset.sp.toNat = 0 ∧ 0 < { State.reset with sp := 1 }.sp.toNat ∧
    { State.reset with sp := 16 }.sp.toNat ≤ 16 := by decide

theorem witness_ReturnUndoesCall : { State.reset with sp := 15 }.sp.toNat < 16 := by decide

/-- RegisterSkips: each condition met and not met. -/
theorem witness_RegisterSkips :
    (regs [(1, 7), (2, 7), (3, 8)]).getV 1 = 7 ∧ (regs [(1, 7), (2, 7), (3, 8)]).getV 1 ≠ 8 ∧
    (regs [(1, 7), (2, 7), (3, 8)]).getV 1 = (regs [(1, 7), (2, 7), (3, 8)]).getV 2 ∧
    (regs [(1, 7), (2, 7), (3, 8)]).getV 1 ≠ (regs [(1, 7), (2, 7), (3, 8)]).getV 3 := by decide

/-- KeySkips: key 15 pressed and not pressed; V[x] = 0x10 and 0xFF are no key. -/
theorem witness_KeySkips :
    (((keysDown [15] (regs [(1, 15)])).getV 1).toNat < 16 ∧ (keysDown [15] (regs [(1, 15)])).keys[15] = true) ∧
    (((regs [(1, 15)]).getV 1).toNat < 16 ∧ (regs [(1, 15)]).keys[15] = false) ∧
    0xF < ((regs [(1, 0x10)]).getV 1).toNat ∧ 0xF < ((regs [(1, 0xFF)]).getV 1).toNat := by decide

/-- LoadsAndFlaglessAdd, BitwiseLogic, AddSetsCarry, SubtractsSetNotBorrow, ShiftsSetShiftedOutBit,
RandomByteIsMasked, TimerMoves: a destination that is VF, one that is not, registers beside it, both flag
values. -/
theorem witness_register_clauses :
    ((1 : Nibble) ≠ 0xF ∧ (2 : Nibble) ≠ 1 ∧ (2 : Nibble) ≠ 0xF ∧ (0xF : Nibble) = 0xF) ∧
    (1 : Byte) = (if ((regs [(1, 5), (2, 3)]).getV 2).toNat < ((regs [(1, 5), (2, 3)]).getV 1).toNat
      then 1 else 0) ∧
    (0 : Byte) = (if ((regs [(1, 5), (2, 5)]).getV 2).toNat < ((regs [(1, 5), (2, 5)]).getV 1).toNat
      then 1 else 0) ∧
    (0x0F : Byte).getLsbD 4 = false := by decide

/-- FlagRegisterAsOperand. -/
theorem witness_FlagRegisterAsOperand :
    (2 : Nibble) ≠ 0xF ∧ 5 = ((regs [(2, 3), (15, 5)]).getV 0xF).toNat ∧
    3 = ((regs [(2, 3), (15, 5)]).getV 2).toNat := by decide

/-- DecimalStore, RegisterStore, RegisterLoad, StoreThenLoadRestoresRegisters: the last address that fits and
the first that does not. -/
theorem witness_transfers :
    { State.reset with i := 0xFFD }.i.toNat + 2 ≤ 0xFFF ∧ 0xFFF < { State.reset with i := 0xFFE }.i.toNat + 2 ∧
    { State.reset with i := 0xFFF }.i.toNat + (0 : Nibble).toNat ≤ 0xFFF ∧
    { State.reset with i := 0xFF0 }.i.toNat + (15 : Nibble).toNat ≤ 0xFFF ∧
    0xFFF < { State.reset with i := 0xFFF }.i.toNat + (1 : Nibble).toNat ∧
    0xFFF < { State.reset with i := 0xFFFF }.i.toNat + (0 : Nibble).toNat ∧
    (15 : Nibble).toNat ≤ (15 : Nibble).toNat ∧ (2 : Nibble).toNat < (3 : Nibble).toNat := by decide

/-- KeyWait: the first key, the last key alone, none. -/
theorem witness_KeyWait :
    ((keysDown [0, 15] State.reset).keys[(0 : Fin 16)] = true ∧
      ∀ j : Fin 16, j < 0 → (keysDown [0, 15] State.reset).keys[j] = false) ∧
    ((keysDown [15] State.reset).keys[(15 : Fin 16)] = true ∧
      ∀ j : Fin 16, j < 15 → (keysDown [15] State.reset).keys[j] = false) ∧
    (∀ k : Fin 16, State.reset.keys[k] = false) := by decide

end Sys2Proof.Tests
end

section
/-! Words that select no instruction and the timer stage (30_encoding.md R64, R65): O4, O7. -/

namespace Sys2Proof

/-! ### The decoder's unassigned words (R60, R64) -/

/-- The dispatch of R60: four categories have a secondary key, every word of the other twelve selects an
instruction. -/
theorem decode_category_cases (w : Word) :
    (fieldCat w = 0x0 ∧ decode w = decode0 w) ∨ (fieldCat w = 0x8 ∧ decode w = decode8 w) ∨
    (fieldCat w = 0xE ∧ decode w = decodeE w) ∨ (fieldCat w = 0xF ∧ decode w = decodeF w) ∨
    ((fieldCat w ≠ 0x0 ∧ fieldCat w ≠ 0x8 ∧ fieldCat w ≠ 0xE ∧ fieldCat w ≠ 0xF) ∧
      ∃ i, decode w = .ok i) := by
  unfold decode
  split
  case h_1 h => exact .inl ⟨h, rfl⟩
  case h_9 h => exact .inr (.inl ⟨h, rfl⟩)
  case h_15 h => exact .inr (.inr (.inl ⟨h, rfl⟩))
  case h_16 =>
    refine .inr (.inr (.inr (.inl ⟨?_, rfl⟩)))
    simp only [imp_false] at *
    bv_omega
  all_goals next h => exact .inr (.inr (.inr (.inr ⟨by rw [h]; decide, _, rfl⟩)))

theorem decode0_error_iff (w : Word) :
    (∃ why, decode0 w = .error why) ↔ fieldN w ≠ 0x0 ∧ fieldN w ≠ 0xE := by
  unfold decode0
  split <;> simp_all

theorem decode8_error_iff (w : Word) :
    (∃ why, decode8 w = .error why) ↔ 0x8 ≤ (fieldN w).toNat ∧ fieldN w ≠ 0xE := by
  unfold decode8
  split
  case h_10 =>
    refine iff_of_true ⟨_, rfl⟩ ⟨?_, by assumption⟩
    simp only [imp_false] at *
    bv_omega
  all_goals next h => simp [h]

theorem decodeE_error_iff (w : Word) :
    (∃ why, decodeE w = .error why) ↔ fieldN w ≠ 0x1 ∧ fieldN w ≠ 0xE := by
  unfold decodeE
  split <;> simp_all

theorem decodeF_error_iff (w : Word) :
    (∃ why, decodeF w = .error why) ↔
      fieldKK w ∉ ([0x07, 0x0A, 0x15, 0x18, 0x1E, 0x29, 0x33, 0x55, 0x65] : List Byte) := by
  unfold decodeF
  split <;> simp_all

/-- R64's list of the unassigned words. -/
theorem decode_error_iff (w : Word) :
    (∃ why, decode w = .error why) ↔
      (fieldCat w = 0x0 ∧ fieldN w ≠ 0x0 ∧ fieldN w ≠ 0xE) ∨
      (fieldCat w = 0x8 ∧ 0x8 ≤ (fieldN w).toNat ∧ fieldN w ≠ 0xE) ∨
      (fieldCat w = 0xE ∧ fieldN w ≠ 0x1 ∧ fieldN w ≠ 0xE) ∨
      (fieldCat w = 0xF ∧
        fieldKK w ∉ ([0x07, 0x0A, 0x15, 0x18, 0x1E, 0x29, 0x33, 0x55, 0x65] : List Byte)) := by
  rcases decode_category_cases w with
    ⟨hc, hd⟩ | ⟨hc, hd⟩ | ⟨hc, hd⟩ | ⟨hc, hd⟩ | ⟨⟨h0, h8, hE, hF⟩, i, hd⟩
  · rw [hd, decode0_error_iff]; simp [hc]
  · rw [hd, decode8_error_iff]; simp [hc]
  · rw [hd, decodeE_error_iff]; simp [hc]
  · rw [hd, decodeF_error_iff]; simp [hc]
  · simp_all

/-- An unassigned word is none of R62's aliased words, so DECODE_ALIAS does not concern it. -/
theorem isAliasedWord_of_decode_error {w : Word} (h : ∃ why, decode w = .error why) :
    isAliasedWord w = false := by
  rcases (decode_error_iff w).1 h with ⟨hc, h1, h2⟩ | ⟨hc, _⟩ | ⟨hc, h1, h2⟩ | ⟨hc, _⟩
  · simp_all [isAliasedWord]
  · simp [isAliasedWord, hc]
  · simp_all [isAliasedWord]
  · simp [isAliasedWord, hc]

end Sys2Proof

namespace Sys2Proof.Machine

/-! ### The stages of a step that completes -/

theorem fetchWord_of_le {s : State} (h : s.pc.toNat ≤ 0xFFE) :
    fetchWord s = some (wordOfBytes (s.readByte s.pc.toNat) (s.readByte (s.pc.toNat + 1))) := by
  rcases fetchWord_cases s with ⟨hpc, _⟩ | ⟨_, hw⟩
  · omega
  · exact hw

/-- The step of a word whose execute stage answers a state (R57). -/
theorem step_of_executeWord_next {s u : State} {w : Word} (hf : s.fault = none)
    (hw : fetchWord s = some w) (hr : refusesWord s.params w = false)
    (hu : executeWord w (beginExecute w s) = .next u) : step s = .next (endStep s u) := by
  simp [step, hf, hw, hr, hu]

theorem executeWord_of_decode_error {w : Word} (h : ∃ why, decode w = .error why) (s : State) :
    executeWord w s = .next s := by
  obtain ⟨why, h⟩ := h
  simp [executeWord, h, execUnassigned]

@[simp] theorem endStep_fault (s0 t : State) : (endStep s0 t).fault = t.fault := by
  unfold endStep
  split <;> rfl

/-- A step that leaves no fault executed the word at pc and then ran the timer stage. -/
theorem step_next_running {s t : State} (h : step s = .next t) (ht : t.fault = none) :
    ∃ w u, w = wordOfBytes (s.readByte s.pc.toNat) (s.readByte (s.pc.toNat + 1)) ∧
      executeWord w (beginExecute w s) = .next u ∧ t = timerStage u := by
  obtain ⟨_, ⟨_, rfl⟩ | ⟨w, u, hw, _, hu, rfl⟩⟩ := step_next_cases h
  · cases ht
  · rw [endStep_fault] at ht
    rcases fetchWord_cases s with ⟨_, hn⟩ | ⟨_, hs⟩
    · cases hn.symm.trans hw
    · exact ⟨w, u, Option.some.inj (hw.symm.trans hs), hu, endStep_of_running s ht⟩

/-- The decrement as a number: truncated subtraction is R65's floor at 0. -/
theorem tickTimer_eq_ofNat (t : Byte) : tickTimer t = BitVec.ofNat 8 (t.toNat - 1) := by
  rw [← tickTimer_toNat, BitVec.ofNat_toNat, BitVec.setWidth_eq]

/-! ### What the execute stage leaves in the timers (R108, R109) -/

/-- DT after the execute stage: V[x] for Fx15, else as before. -/
def delayAfterExecute (d : Except Unassigned Instr) (s : State) : Byte :=
  match d with
  | .ok (.ldDTVx x) => s.getV x
  | _ => s.dt

/-- ST after the execute stage: V[x] for Fx18, else as before. -/
def soundAfterExecute (d : Except Unassigned Instr) (s : State) : Byte :=
  match d with
  | .ok (.ldSTVx x) => s.getV x
  | _ => s.st

theorem delayAfterExecute_of_ne {d : Except Unassigned Instr} (h : ∀ x, d ≠ .ok (.ldDTVx x))
    (s : State) : delayAfterExecute d s = s.dt := by
  unfold delayAfterExecute
  split
  · next x => exact absurd rfl (h x)
  · rfl

theorem soundAfterExecute_of_ne {d : Except Unassigned Instr} (h : ∀ x, d ≠ .ok (.ldSTVx x))
    (s : State) : soundAfterExecute d s = s.st := by
  unfold soundAfterExecute
  split
  · next x => exact absurd rfl (h x)
  · rfl

theorem storeThroughIndex_timers {bs : List Byte} {s t : State}
    (h : storeThroughIndex bs s = .next t) : t.dt = s.dt ∧ t.st = s.st := by
  rcases storeThroughIndex_cases bs s with ⟨_, _, e⟩ | ⟨_, e⟩ <;> cases e.symm.trans h
  · exact ⟨rfl, rfl⟩
  · rw [State.storeBytes_eq]; exact ⟨rfl, rfl⟩

theorem skipOnKey_timers {x : Nibble} {pressed : Bool} {s t : State}
    (h : skipOnKey x pressed s = .next t) : t.dt = s.dt ∧ t.st = s.st := by
  rcases skipOnKey_cases x pressed s with ⟨_, e⟩ | ⟨_, e⟩ <;> cases e.symm.trans h
  · exact ⟨rfl, rfl⟩
  · exact ⟨s.skipIf_dt _, s.skipIf_st _⟩

/-- Only Fx15 writes DT and only Fx18 writes ST in the execute stage, fault or no fault. -/
theorem exec_timers {i : Instr} {s t : State} (h : exec i s = .next t) :
    t.dt = delayAfterExecute (.ok i) s ∧ t.st = soundAfterExecute (.ok i) s := by
  cases i
  case ret =>
    rcases popAndJump_cases s with ⟨_, e⟩ | ⟨_, e⟩ | ⟨_, e⟩ <;> cases e.symm.trans h <;>
      exact ⟨rfl, rfl⟩
  case call nnn =>
    rcases pushAndJump_cases (addrOperand nnn) s with ⟨_, e⟩ | ⟨_, e⟩ | ⟨_, e⟩ <;>
      cases e.symm.trans h <;> exact ⟨rfl, rfl⟩
  case drw x y n =>
    rcases execDrw_cases x y n s with ⟨_, _, e⟩ | ⟨_, ⟨_, _, e⟩ | ⟨_, e⟩⟩ <;>
      cases e.symm.trans h <;> exact ⟨rfl, rfl⟩
  case ldVxMem x =>
    rcases execLdVxMem_cases x s with ⟨_, e⟩ | ⟨_, e⟩ <;> cases e.symm.trans h
    · exact ⟨rfl, rfl⟩
    · rw [State.setVs_eq]; exact ⟨rfl, rfl⟩
  case ldVxK x =>
    rcases execLdVxK_cases x s with ⟨_, _, e⟩ | ⟨_, e⟩ <;> cases e.symm.trans h <;>
      exact ⟨rfl, rfl⟩
  case ldB x => exact storeThroughIndex_timers h
  case ldMemVx x => exact storeThroughIndex_timers h
  case skp x => exact skipOnKey_timers h
  case sknp x => exact skipOnKey_timers h
  case seImm x kk => cases h; exact ⟨s.skipIf_dt _, s.skipIf_st _⟩
  case sneImm x kk => cases h; exact ⟨s.skipIf_dt _, s.skipIf_st _⟩
  case seReg x y => cases h; exact ⟨s.skipIf_dt _, s.skipIf_st _⟩
  case sneReg x y => cases h; exact ⟨s.skipIf_dt _, s.skipIf_st _⟩
  all_goals cases h; exact ⟨rfl, rfl⟩

theorem executeWord_timers {w : Word} {s t : State} (h : executeWord w s = .next t) :
    t.dt = delayAfterExecute (decode w) s ∧ t.st = soundAfterExecute (decode w) s := by
  rcases executeWord_cases w s with ⟨i, hd, e⟩ | ⟨why, hd, e⟩ <;> rw [hd]
  · exact exec_timers (e.symm.trans h)
  · cases e.symm.trans h
    exact ⟨rfl, rfl⟩

/-- R65: a step that leaves no fault decrements once what the execute stage left. -/
theorem step_timers {s t : State} (h : step s = .next t) (ht : t.fault = none) :
    ∃ w, w = wordOfBytes (s.readByte s.pc.toNat) (s.readByte (s.pc.toNat + 1)) ∧
      t.dt.toNat = (delayAfterExecute (decode w) s).toNat - 1 ∧
      t.st.toNat = (soundAfterExecute (decode w) s).toNat - 1 := by
  obtain ⟨w, u, hw, hu, rfl⟩ := step_next_running h ht
  obtain ⟨hdt, hst⟩ := executeWord_timers hu
  refine ⟨w, hw, ?_, ?_⟩
  · rw [timerStage_dt, tickTimer_toNat, hdt]; rfl
  · rw [timerStage_st, tickTimer_toNat, hst]; rfl

end Sys2Proof.Machine

namespace Sys2Proof.Proofs

open Sys2Proof.Machine

/-- Settles O4: the decoder's four secondary keys give R64's list, and an unassigned word is not aliased,
so its step is fetch, advance, no execution, timers. -/
theorem unassignedWordIsNoOp : Obligations.UnassignedWordIsNoOp := by
  refine fun w => ⟨decode_error_iff w, fun s hwhy hf hpc hw => ?_⟩
  have hr : refusesWord s.params w = false := by
    simp [refusesWord, isAliasedWord_of_decode_error hwhy]
  rw [step_of_executeWord_next hf (hw ▸ fetchWord_of_le hpc) hr (executeWord_of_decode_error hwhy _),
    endStep_of_running s (t := beginExecute w s) hf, timerStage, tickTimer_eq_ofNat, tickTimer_eq_ofNat]
  rfl

/-- Settles O7: the timer stage decrements what the execute stage left, which is V[x] for Fx15 or Fx18 and
the timer before the step otherwise. -/
theorem timersTickOncePerStep : Obligations.TimersTickOncePerStep := by
  intro s t w hstep ht hw
  obtain ⟨_, rfl, hdt, hst⟩ := step_timers hstep ht
  rw [← hw] at hdt hst
  refine ⟨fun x hd => ?_, fun hne => ?_, fun x hd => ?_, fun hne => ?_⟩
  · rw [hdt, hd]; rfl
  · rw [hdt, delayAfterExecute_of_ne hne]
  · rw [hst, hd]; rfl
  · rw [hst, soundAfterExecute_of_ne hne]

end Sys2Proof.Proofs
end

section
/-! 00E0 and its aliased words (41_display.md R68): O22. -/

namespace Sys2Proof

theorem decode_of_category0 {w : Word} (hc : fieldCat w = 0x0) : decode w = decode0 w := by
  simp [decode, hc]

theorem decode0_eq_cls {w : Word} (hn : fieldN w = 0x0) : decode0 w = .ok .cls := by
  simp [decode0, hn]

end Sys2Proof

namespace Sys2Proof.Machine

theorem exec_cls (s : State) : exec .cls s = .next (s.setDisplay blankDisplay) := rfl

@[simp] theorem pixelOn_blankDisplay (t : Nat) : pixelOn blankDisplay t = false :=
  BitVec.getLsbD_zero

end Sys2Proof.Machine

namespace Sys2Proof.Proofs

open Sys2Proof.Machine

/-- Settles O22: the secondary key of category 0 alone selects 00E0, so every alias does; its execute stage
writes the blank display and no other field. -/
theorem clsClearsDisplay : Obligations.ClsClearsDisplay := by
  refine ⟨fun w hc hn => (decode_of_category0 hc).trans (decode0_eq_cls hn), fun s => ?_⟩
  refine ⟨s.setDisplay blankDisplay, exec_cls s, fun u _ => ?pixels, ?memory, ?frame⟩
  case pixels => simp
  case memory => exact sameMemory_of_eq (s.setDisplay_mem _) (s.setDisplay_params _)
  case frame => rfl

end Sys2Proof.Proofs
end

section
/-! 1nnn (42_control_flow.md R75): O27; and what every jump and skip shares, the address operand of format `A`
and the frame of a pc write. -/

namespace Sys2Proof

theorem decode_of_category1 {w : Word} (hc : fieldCat w = 0x1) : decode w = .ok (.jp (fieldNNN w)) := by
  simp [decode, hc]

end Sys2Proof

namespace Sys2Proof.Machine

/-- The zero extension keeps all twelve bits and adds none. -/
@[simp] theorem addrOperand_toNat (nnn : Addr12) : (addrOperand nnn).toNat = nnn.toNat :=
  BitVec.toNat_setWidth_of_le (by decide)

theorem State.setPc_onlyPcChanges (s : State) (w : Word) : OnlyPcChanges s (s.setPc w) :=
  ⟨sameMemory_of_eq (s.setPc_mem w) (s.setPc_params w), rfl⟩

theorem exec_jp (nnn : Addr12) (s : State) : exec (.jp nnn) s = .next (s.setPc (addrOperand nnn)) := rfl

end Sys2Proof.Machine

namespace Sys2Proof.Proofs

open Sys2Proof.Machine

/-- Settles O27: category 1 has no secondary key, and the execute stage of 1nnn is one write of pc with the
zero-extended address. -/
theorem jumpSetsPc : Obligations.JumpSetsPc := by
  refine ⟨fun _ => decode_of_category1, fun s nnn => ?_⟩
  refine ⟨s.setPc (addrOperand nnn), exec_jp nnn s, ?target, s.setPc_onlyPcChanges _⟩
  case target => rw [State.setPc_pc, addrOperand_toNat]

end Sys2Proof.Proofs
end

section
/-! The register skips 3xkk, 4xkk, 5xy0, 9xy0 (43_skips.md R79 to R82): O32; and what every skip shares, the
frame and the pc of `skipIf` (R78). -/

namespace Sys2Proof

theorem decode_of_category3 {w : Word} (hc : fieldCat w = 0x3) :
    decode w = .ok (.seImm (fieldX w) (fieldKK w)) := by
  simp [decode, hc]

theorem decode_of_category4 {w : Word} (hc : fieldCat w = 0x4) :
    decode w = .ok (.sneImm (fieldX w) (fieldKK w)) := by
  simp [decode, hc]

theorem decode_of_category5 {w : Word} (hc : fieldCat w = 0x5) :
    decode w = .ok (.seReg (fieldX w) (fieldY w)) := by
  simp [decode, hc]

theorem decode_of_category9 {w : Word} (hc : fieldCat w = 0x9) :
    decode w = .ok (.sneReg (fieldX w) (fieldY w)) := by
  simp [decode, hc]

end Sys2Proof

namespace Sys2Proof.Machine

theorem State.skipIf_onlyPcChanges (s : State) (c : Bool) : OnlyPcChanges s (s.skipIf c) :=
  ⟨sameMemory_of_eq (s.skipIf_mem c) (s.skipIf_params c), by cases c <;> rfl⟩

/-- The effect of a skip on equality (R79, R81). -/
theorem State.skipIf_beq (s : State) (a b : Byte) :
    OnlyPcChanges s (s.skipIf (a == b)) ∧
      (a = b → (s.skipIf (a == b)).pc = s.pc + 2) ∧ (a ≠ b → (s.skipIf (a == b)).pc = s.pc) := by
  refine ⟨s.skipIf_onlyPcChanges _, fun h => ?taken, fun h => ?notTaken⟩
  case taken => simp [h]
  case notTaken => simp [h]

/-- The effect of a skip on inequality (R80, R82). -/
theorem State.skipIf_bne (s : State) (a b : Byte) :
    OnlyPcChanges s (s.skipIf (a != b)) ∧
      (a ≠ b → (s.skipIf (a != b)).pc = s.pc + 2) ∧ (a = b → (s.skipIf (a != b)).pc = s.pc) := by
  refine ⟨s.skipIf_onlyPcChanges _, fun h => ?taken, fun h => ?notTaken⟩
  case taken => simp [h]
  case notTaken => simp [h]

theorem exec_seImm (x : Nibble) (kk : Byte) (s : State) :
    exec (.seImm x kk) s = .next (s.skipIf (s.getV x == kk)) := rfl

theorem exec_sneImm (x : Nibble) (kk : Byte) (s : State) :
    exec (.sneImm x kk) s = .next (s.skipIf (s.getV x != kk)) := rfl

theorem exec_seReg (x y : Nibble) (s : State) :
    exec (.seReg x y) s = .next (s.skipIf (s.getV x == s.getV y)) := rfl

theorem exec_sneReg (x y : Nibble) (s : State) :
    exec (.sneReg x y) s = .next (s.skipIf (s.getV x != s.getV y)) := rfl

end Sys2Proof.Machine

namespace Sys2Proof.Proofs

open Sys2Proof.Machine

/-- Settles O32: categories 3, 4, 5 and 9 have no secondary key, and the execute stage of each skip is one
`skipIf`, on equality for 3xkk and 5xy0 and on inequality for 4xkk and 9xy0. -/
theorem registerSkips : Obligations.RegisterSkips := by
  refine ⟨fun _ => ⟨decode_of_category3, decode_of_category4, decode_of_category5, decode_of_category9⟩,
    fun s x y kk => ⟨?seImm, ?sneImm, ?seReg, ?sneReg⟩⟩
  case seImm => exact ⟨_, exec_seImm x kk s, s.skipIf_beq _ _⟩
  case sneImm => exact ⟨_, exec_sneImm x kk s, s.skipIf_bne _ _⟩
  case seReg => exact ⟨_, exec_seReg x y s, s.skipIf_beq _ _⟩
  case sneReg => exact ⟨_, exec_sneReg x y s, s.skipIf_bne _ _⟩

end Sys2Proof.Proofs
end

section
/-! The loads 6xkk and 8xy0 and the flagless add 7xkk (44_alu.md R88 to R90): O34; and what the whole ALU family
shares, the secondary key of category 8 (30_encoding.md R60) and the frame of a register write. -/

namespace Sys2Proof

theorem decode_of_category6 {w : Word} (hc : fieldCat w = 0x6) :
    decode w = .ok (.ldImm (fieldX w) (fieldKK w)) := by
  simp [decode, hc]

theorem decode_of_category7 {w : Word} (hc : fieldCat w = 0x7) :
    decode w = .ok (.addImm (fieldX w) (fieldKK w)) := by
  simp [decode, hc]

theorem decode_of_category8 {w : Word} (hc : fieldCat w = 0x8) : decode w = decode8 w := by
  simp [decode, hc]

theorem decode8_eq_ldReg {w : Word} (hn : fieldN w = 0x0) :
    decode8 w = .ok (.ldReg (fieldX w) (fieldY w)) := by
  simp [decode8, hn]

end Sys2Proof

namespace Sys2Proof.Machine

/-- What one register write leaves unchanged: every other register and every other field. -/
theorem State.setV_frame (s : State) (x : Nibble) (b : Byte) :
    (∀ r, r ≠ x → (s.setV x b).getV r = s.getV r) ∧ OnlyRegistersChange s (s.setV x b) :=
  ⟨fun _ hr => s.getV_setV_other b hr, sameMemory_of_eq (s.setV_mem x b) (s.setV_params x b), rfl⟩

theorem exec_ldImm (x : Nibble) (kk : Byte) (s : State) :
    exec (.ldImm x kk) s = .next (s.setV x kk) := rfl

theorem exec_addImm (x : Nibble) (kk : Byte) (s : State) :
    exec (.addImm x kk) s = .next (s.setV x (s.getV x + kk)) := rfl

theorem exec_ldReg (x y : Nibble) (s : State) :
    exec (.ldReg x y) s = .next (s.setV x (s.getV y)) := rfl

end Sys2Proof.Machine

namespace Sys2Proof.Proofs

open Sys2Proof.Machine

/-- Settles O34: the execute stage of each is one write of V[x]; the addition of bytes is the sum modulo 256. -/
theorem loadsAndFlaglessAdd : Obligations.LoadsAndFlaglessAdd := by
  refine ⟨fun _ => ⟨decode_of_category6, decode_of_category7,
    fun hc hn => (decode_of_category8 hc).trans (decode8_eq_ldReg hn)⟩,
    fun s x y kk => ⟨?ldImm, ?addImm, ?ldReg⟩⟩
  case ldImm => exact ⟨_, exec_ldImm x kk s, s.getV_setV_same x _, s.setV_frame x _⟩
  case addImm =>
    refine ⟨_, exec_addImm x kk s, ?sum, s.setV_frame x _⟩
    case sum => rw [State.getV_setV_same, BitVec.toNat_add]
  case ldReg => exact ⟨_, exec_ldReg x y s, s.getV_setV_same x _, s.setV_frame x _⟩

end Sys2Proof.Proofs
end

section
/-! 8xy1, 8xy2 and 8xy3 (44_alu.md R91 to R93): O35. -/

namespace Sys2Proof

theorem decode8_eq_orReg {w : Word} (hn : fieldN w = 0x1) :
    decode8 w = .ok (.orReg (fieldX w) (fieldY w)) := by
  simp [decode8, hn]

theorem decode8_eq_andReg {w : Word} (hn : fieldN w = 0x2) :
    decode8 w = .ok (.andReg (fieldX w) (fieldY w)) := by
  simp [decode8, hn]

theorem decode8_eq_xorReg {w : Word} (hn : fieldN w = 0x3) :
    decode8 w = .ok (.xorReg (fieldX w) (fieldY w)) := by
  simp [decode8, hn]

end Sys2Proof

namespace Sys2Proof.Machine

theorem exec_orReg (x y : Nibble) (s : State) :
    exec (.orReg x y) s = .next (s.setV x (s.getV x ||| s.getV y)) := rfl

theorem exec_andReg (x y : Nibble) (s : State) :
    exec (.andReg x y) s = .next (s.setV x (s.getV x &&& s.getV y)) := rfl

theorem exec_xorReg (x y : Nibble) (s : State) :
    exec (.xorReg x y) s = .next (s.setV x (s.getV x ^^^ s.getV y)) := rfl

end Sys2Proof.Machine

namespace Sys2Proof.Proofs

open Sys2Proof.Machine

/-- Settles O35: the execute stage of each is one write of V[x], whose bits are the operands' bits combined;
VF is a register like any other. -/
theorem bitwiseLogic : Obligations.BitwiseLogic := by
  refine ⟨fun w hc => ?decoding, fun s x y => ⟨?or, ?and, ?xor⟩⟩
  case decoding =>
    rw [decode_of_category8 hc]
    exact ⟨decode8_eq_orReg, decode8_eq_andReg, decode8_eq_xorReg⟩
  case or =>
    refine ⟨_, exec_orReg x y s, fun k => ?bits, s.setV_frame x _⟩
    case bits => rw [State.getV_setV_same, BitVec.getLsbD_or]
  case and =>
    refine ⟨_, exec_andReg x y s, fun k => ?bits, s.setV_frame x _⟩
    case bits => rw [State.getV_setV_same, BitVec.getLsbD_and]
  case xor =>
    refine ⟨_, exec_xorReg x y s, fun k => ?bits, s.setV_frame x _⟩
    case bits => rw [State.getV_setV_same, BitVec.getLsbD_xor]

end Sys2Proof.Proofs
end

section
/-! 8xy4 (44_alu.md R94): O36; and what every instruction shares that writes VF first and V[x] after it
(44_alu.md R87). -/

namespace Sys2Proof

theorem decode8_eq_addReg {w : Word} (hn : fieldN w = 0x4) :
    decode8 w = .ok (.addReg (fieldX w) (fieldY w)) := by
  simp [decode8, hn]

end Sys2Proof

namespace Sys2Proof.Machine

/-- The flag survives the write of V[x] unless V[x] is VF. -/
theorem State.getV_flag_setVF_setV (s : State) {x : Nibble} (f b : Byte) (hx : x ≠ 0xF) :
    ((s.setVF f).setV x b).getV 0xF = f := by
  rw [State.getV_setV_other _ _ hx.symm, State.getV_setVF, if_pos rfl]

/-- What a write of VF and then of V[x] leaves unchanged. -/
theorem State.setVF_setV_frame (s : State) (x : Nibble) (f b : Byte) :
    (∀ r, r ≠ x → r ≠ 0xF → ((s.setVF f).setV x b).getV r = s.getV r) ∧
      OnlyRegistersChange s ((s.setVF f).setV x b) := by
  refine ⟨fun r hr hF => ?registers, sameMemory_of_eq rfl rfl, rfl⟩
  case registers => rw [State.getV_setV_other _ _ hr, State.getV_setVF, if_neg hF]

theorem carryFlag_eq (a b : Byte) : carryFlag a b = if 255 < a.toNat + b.toNat then 1 else 0 := by
  simp [carryFlag, flagByte]

theorem exec_addReg (x y : Nibble) (s : State) :
    exec (.addReg x y) s =
      .next ((s.setVF (carryFlag (s.getV x) (s.getV y))).setV x (s.getV x + s.getV y)) := rfl

end Sys2Proof.Machine

namespace Sys2Proof.Proofs

open Sys2Proof.Machine

/-- Settles O36: both written values are computed from the registers before the instruction, and the sum is
written after the carry, so it is what stands in VF when x is 0xF. -/
theorem addSetsCarry : Obligations.AddSetsCarry := by
  refine ⟨fun w hc hn => (decode_of_category8 hc).trans (decode8_eq_addReg hn), fun s x y => ?_⟩
  refine ⟨_, exec_addReg x y s, ?sum, fun hx => ?carry, s.setVF_setV_frame x _ _⟩
  case sum => rw [State.getV_setV_same, BitVec.toNat_add]
  case carry => rw [s.getV_flag_setVF_setV _ _ hx, carryFlag_eq]

end Sys2Proof.Proofs
end

section
/-! 8xy5 and 8xy7 (44_alu.md R95, R96): O37. -/

namespace Sys2Proof

theorem decode8_eq_sub {w : Word} (hn : fieldN w = 0x5) :
    decode8 w = .ok (.sub (fieldX w) (fieldY w)) := by
  simp [decode8, hn]

theorem decode8_eq_subn {w : Word} (hn : fieldN w = 0x7) :
    decode8 w = .ok (.subn (fieldX w) (fieldY w)) := by
  simp [decode8, hn]

end Sys2Proof

namespace Sys2Proof.Machine

theorem notBorrowFlag_eq (minuend subtrahend : Byte) :
    notBorrowFlag minuend subtrahend = if subtrahend.toNat < minuend.toNat then 1 else 0 := by
  simp [notBorrowFlag, flagByte]

theorem byte_sub_toNat (a b : Byte) : (a - b).toNat = (256 + a.toNat - b.toNat) % 256 := by
  bv_omega

/-- The common end of R95 and R96: V[x] <- V[a] - V[b] once VF holds the flag `f`. -/
def State.subAfterFlag (s : State) (f : Byte) (x a b : Nibble) : State :=
  (s.setVF f).setV x ((s.setVF f).getV a - (s.setVF f).getV b)

theorem exec_sub (x y : Nibble) (s : State) :
    exec (.sub x y) s = .next (s.subAfterFlag (notBorrowFlag (s.getV x) (s.getV y)) x x y) := rfl

theorem exec_subn (x y : Nibble) (s : State) :
    exec (.subn x y) s = .next (s.subAfterFlag (notBorrowFlag (s.getV y) (s.getV x)) x y x) := rfl

/-- The operands are read after VF is written, so an operand that is VF is the flag. -/
theorem State.subAfterFlag_effect (s : State) (f : Byte) (x a b : Nibble) :
    ((s.subAfterFlag f x a b).getV x).toNat =
        (256 + (if a = 0xF then f else s.getV a).toNat
          - (if b = 0xF then f else s.getV b).toNat) % 256 ∧
      (x ≠ 0xF → (s.subAfterFlag f x a b).getV 0xF = f) ∧
      (∀ r, r ≠ x → r ≠ 0xF → (s.subAfterFlag f x a b).getV r = s.getV r) ∧
      OnlyRegistersChange s (s.subAfterFlag f x a b) := by
  refine ⟨?difference, s.getV_flag_setVF_setV f _, s.setVF_setV_frame x f _⟩
  case difference =>
    rw [State.subAfterFlag, State.getV_setV_same, byte_sub_toNat, State.getV_setVF, State.getV_setVF]

end Sys2Proof.Machine

namespace Sys2Proof.Proofs

open Sys2Proof.Machine

/-- Settles O37: both execute stages write the strict comparison of the operands to VF and then subtract,
8xy5 V[y] from V[x] and 8xy7 V[x] from V[y]. -/
theorem subtractsSetNotBorrow : Obligations.SubtractsSetNotBorrow := by
  refine ⟨fun w hc => ?decoding, fun s x y f => ⟨fun hf => ?sub, fun hf => ?subn⟩⟩
  case decoding =>
    rw [decode_of_category8 hc]
    exact ⟨decode8_eq_sub, decode8_eq_subn⟩
  case sub =>
    rw [← notBorrowFlag_eq] at hf
    exact ⟨_, hf ▸ exec_sub x y s, s.subAfterFlag_effect f x x y⟩
  case subn =>
    rw [← notBorrowFlag_eq] at hf
    exact ⟨_, hf ▸ exec_subn x y s, s.subAfterFlag_effect f x y x⟩

end Sys2Proof.Proofs
end

section
/-! 8xy6 and 8xyE (44_alu.md R97, R98): O38. -/

namespace Sys2Proof

theorem decode8_eq_shr {w : Word} (hn : fieldN w = 0x6) :
    decode8 w = .ok (.shr (fieldX w) (fieldY w)) := by
  simp [decode8, hn]

theorem decode8_eq_shl {w : Word} (hn : fieldN w = 0xE) :
    decode8 w = .ok (.shl (fieldX w) (fieldY w)) := by
  simp [decode8, hn]

end Sys2Proof

namespace Sys2Proof.Machine

theorem byte_shiftRight_one_toNat (b : Byte) : (b >>> 1).toNat = b.toNat / 2 := by
  rw [BitVec.toNat_ushiftRight, Nat.shiftRight_eq_div_pow]

theorem byte_shiftLeft_one_toNat (b : Byte) : (b <<< 1).toNat = b.toNat * 2 % 256 := by
  rw [BitVec.toNat_shiftLeft, Nat.shiftLeft_eq]

theorem shiftRightFlag_toNat (b : Byte) : (shiftRightFlag b).toNat = b.toNat % 2 := by
  rw [shiftRightFlag, BitVec.toNat_and]
  exact Nat.and_one_is_mod _

/-- Bit 7 is bit 0 of the byte shifted right by seven. -/
theorem shiftLeftFlag_toNat (b : Byte) : (shiftLeftFlag b).toNat = b.toNat / 128 := by
  have hbit : shiftLeftFlag b = shiftRightFlag (b >>> 7) := BitVec.ushiftRight_and_distrib b 0x80 7
  rw [hbit, shiftRightFlag_toNat, BitVec.toNat_ushiftRight, Nat.shiftRight_eq_div_pow]
  omega

/-- A flag has no bit above bit 0. -/
theorem shiftRightFlag_shiftRight_one (b : Byte) : shiftRightFlag b >>> 1 = 0 := by
  apply BitVec.eq_of_toNat_eq
  rw [byte_shiftRight_one_toNat, shiftRightFlag_toNat]
  exact Nat.div_eq_of_lt (Nat.mod_lt _ (by decide))

theorem shiftLeftFlag_shiftLeft_one_toNat (b : Byte) :
    (shiftLeftFlag b <<< 1).toNat = 2 * (b.toNat / 128) := by
  rw [byte_shiftLeft_one_toNat, shiftLeftFlag_toNat]
  omega

/-- The common shape of R97 and R98: V[x] <- `shift` of V[x] once VF holds the flag `f`. -/
def State.shiftAfterFlag (s : State) (f : Byte) (x : Nibble) (shift : Byte → Byte) : State :=
  (s.setVF f).setV x (shift ((s.setVF f).getV x))

theorem State.getV_shiftAfterFlag_of_ne (s : State) {x : Nibble} (f : Byte) (shift : Byte → Byte)
    (hx : x ≠ 0xF) : (s.shiftAfterFlag f x shift).getV x = shift (s.getV x) := by
  rw [State.shiftAfterFlag, State.getV_setV_same, State.getV_setVF, if_neg hx]

theorem State.getV_flag_shiftAfterFlag_of_ne (s : State) {x : Nibble} (f : Byte) (shift : Byte → Byte)
    (hx : x ≠ 0xF) : (s.shiftAfterFlag f x shift).getV 0xF = f :=
  s.getV_flag_setVF_setV f _ hx

/-- With VF as the register to shift, it is the flag that is shifted. -/
theorem State.getV_flag_shiftAfterFlag (s : State) (f : Byte) (shift : Byte → Byte) :
    (s.shiftAfterFlag f 0xF shift).getV 0xF = shift f := by
  rw [State.shiftAfterFlag, State.getV_setV_same, State.getV_setVF, if_pos rfl]

theorem exec_shr (x y : Nibble) (s : State) :
    exec (.shr x y) s = .next (s.shiftAfterFlag (shiftRightFlag (s.getV x)) x (· >>> 1)) := rfl

theorem exec_shl (x y : Nibble) (s : State) :
    exec (.shl x y) s = .next (s.shiftAfterFlag (shiftLeftFlag (s.getV x)) x (· <<< 1)) := rfl

end Sys2Proof.Machine

namespace Sys2Proof.Proofs

open Sys2Proof.Machine

/-- Settles O38: V[x] is read again after VF is written, so for x = 0xF it is the flag that is shifted. -/
theorem shiftsSetShiftedOutBit : Obligations.ShiftsSetShiftedOutBit := by
  refine ⟨fun w hc => ?decoding, fun s x y => ⟨?shr, ?shl⟩⟩
  case decoding =>
    rw [decode_of_category8 hc]
    exact ⟨decode8_eq_shr, decode8_eq_shl⟩
  case shr =>
    refine ⟨_, exec_shr x y s, fun hx => ⟨?result, ?flag⟩, ?flagShifted, s.setVF_setV_frame x _ _⟩
    case result => rw [s.getV_shiftAfterFlag_of_ne _ _ hx, byte_shiftRight_one_toNat]
    case flag => rw [s.getV_flag_shiftAfterFlag_of_ne _ _ hx, shiftRightFlag_toNat]
    case flagShifted =>
      rintro rfl
      rw [State.getV_flag_shiftAfterFlag, shiftRightFlag_shiftRight_one]
  case shl =>
    refine ⟨_, exec_shl x y s, fun hx => ⟨?result, ?flag⟩, ?flagShifted, s.setVF_setV_frame x _ _⟩
    case result => rw [s.getV_shiftAfterFlag_of_ne _ _ hx, byte_shiftLeft_one_toNat]
    case flag => rw [s.getV_flag_shiftAfterFlag_of_ne _ _ hx, shiftLeftFlag_toNat]
    case flagShifted =>
      rintro rfl
      rw [State.getV_flag_shiftAfterFlag, shiftLeftFlag_shiftLeft_one_toNat]

end Sys2Proof.Proofs
end

section
/-! Annn, Fx1E and Fx29 (45_index_memory.md R101 to R103): O41; and what the index and memory family shares, the
decoding of category 15 (30_encoding.md R60) and the frame of a write of I. -/

namespace Sys2Proof

theorem decode_of_category10 {w : Word} (hc : fieldCat w = 0xA) : decode w = .ok (.ldI (fieldNNN w)) := by
  simp [decode, hc]

theorem decode_of_category15 {w : Word} (hc : fieldCat w = 0xF) : decode w = decodeF w := by
  simp [decode, hc]

theorem decodeF_eq_addI {w : Word} (hk : fieldKK w = 0x1E) : decodeF w = .ok (.addI (fieldX w)) := by
  simp [decodeF, hk]

theorem decodeF_eq_ldF {w : Word} (hk : fieldKK w = 0x29) : decodeF w = .ok (.ldF (fieldX w)) := by
  simp [decodeF, hk]

end Sys2Proof

namespace Sys2Proof.Machine

@[simp] theorem byteOperand_toNat (b : Byte) : (byteOperand b).toNat = b.toNat :=
  BitVec.toNat_setWidth_of_le (by decide)

/-- The glyph address of the greatest byte is 0x54B, so no sum of R103 wraps. -/
@[simp] theorem glyphAddress_toNat (b : Byte) : (glyphAddress b).toNat = 0x050 + 5 * b.toNat := by
  have hb : b.toNat < 256 := b.isLt
  have hfit : 0x050 + 5 * b.toNat < 2 ^ 16 := by omega
  exact Nat.mod_eq_of_lt hfit

theorem State.setI_onlyIndexChanges (s : State) (w : Word) : OnlyIndexChanges s (s.setI w) :=
  ⟨sameMemory_of_eq (s.setI_mem w) (s.setI_params w), rfl⟩

theorem exec_ldI (nnn : Addr12) (s : State) : exec (.ldI nnn) s = .next (s.setI (addrOperand nnn)) := rfl

theorem exec_addI (x : Nibble) (s : State) :
    exec (.addI x) s = .next (s.setI (s.i + byteOperand (s.getV x))) := rfl

theorem exec_ldF (x : Nibble) (s : State) :
    exec (.ldF x) s = .next (s.setI (glyphAddress (s.getV x))) := rfl

end Sys2Proof.Machine

namespace Sys2Proof.Proofs

open Sys2Proof.Machine

/-- Settles O41: the execute stage of each is one write of I; the addition of words is the sum modulo 65536,
and the glyph address of a whole byte fits in a word. -/
theorem indexRegisterWriters : Obligations.IndexRegisterWriters := by
  refine ⟨fun w => ⟨decode_of_category10,
    fun hc hk => (decode_of_category15 hc).trans (decodeF_eq_addI hk),
    fun hc hk => (decode_of_category15 hc).trans (decodeF_eq_ldF hk)⟩,
    fun s nnn x => ⟨?ldI, ?addI, ?ldF⟩⟩
  case ldI =>
    refine ⟨_, exec_ldI nnn s, ?address, s.setI_onlyIndexChanges _⟩
    case address => rw [State.setI_i, addrOperand_toNat]
  case addI =>
    refine ⟨_, exec_addI x s, ?sum, s.setI_onlyIndexChanges _⟩
    case sum => rw [State.setI_i, BitVec.toNat_add, byteOperand_toNat]
  case ldF =>
    refine ⟨_, exec_ldF x s, ?glyph, s.setI_onlyIndexChanges _⟩
    case glyph => rw [State.setI_i, glyphAddress_toNat]

end Sys2Proof.Proofs
end

section
/-! Fx0A (46_timers_keys.md R110): O47. -/

namespace Sys2Proof

theorem decodeF_eq_ldVxK {w : Word} (hk : fieldKK w = 0x0A) : decodeF w = .ok (.ldVxK (fieldX w)) := by
  simp [decodeF, hk]

end Sys2Proof

namespace Sys2Proof.Machine

/-- A pressed key with no lower one pressed is the key that the search finds. -/
theorem lowestPressedKey_of_lowest {keys : Vector Bool 16} {k : Fin 16} (hk : keys[k] = true)
    (hlow : ∀ j : Fin 16, j < k → keys[j] = false) : lowestPressedKey keys = some k.val :=
  (lowestPressedKey_some_iff keys k).2 ⟨k.isLt, hk, fun j hj => hlow ⟨j, hj.trans k.isLt⟩ hj⟩

/-- A key number fits in a byte. -/
theorem keyByte_toNat (k : Fin 16) : (BitVec.ofNat 8 k.val).toNat = k.val :=
  Nat.mod_eq_of_lt (k.isLt.trans (by decide))

theorem exec_ldVxK_of_some {s : State} {k : Nat} (h : lowestPressedKey s.keys = some k) (x : Nibble) :
    exec (.ldVxK x) s = .next (s.setV x (BitVec.ofNat 8 k)) := by
  rcases execLdVxK_cases x s with ⟨_, hsome, hexec⟩ | ⟨hnone, _⟩
  · cases hsome.symm.trans h
    exact hexec
  · cases hnone.symm.trans h

theorem exec_ldVxK_of_none {s : State} (h : lowestPressedKey s.keys = none) (x : Nibble) :
    exec (.ldVxK x) s = .next (s.setPc (s.pc - 2)) := by
  rcases execLdVxK_cases x s with ⟨_, hsome, _⟩ | ⟨_, hexec⟩
  · cases hsome.symm.trans h
  · exact hexec

end Sys2Proof.Machine

namespace Sys2Proof.Proofs

open Sys2Proof.Machine

/-- Settles O47: the search for the lowest pressed key finds it, and Fx0A is then one register write; when no
key is pressed the search finds none, and Fx0A is one write of pc. -/
theorem keyWait : Obligations.KeyWait := by
  refine ⟨fun w hc hk => (decode_of_category15 hc).trans (decodeF_eq_ldVxK hk),
    fun s x => ⟨fun k hk hlow => ?pressed, fun hnone => ?released⟩⟩
  case pressed =>
    refine ⟨_, exec_ldVxK_of_some (lowestPressedKey_of_lowest hk hlow) x, ?key, s.setV_frame x _⟩
    case key => rw [State.getV_setV_same, keyByte_toNat]
  case released =>
    exact ⟨_, exec_ldVxK_of_none ((lowestPressedKey_none_iff s.keys).2 hnone) x, s.setPc_pc _,
      s.setPc_onlyPcChanges _⟩

end Sys2Proof.Proofs
end

section
/-! Fx07, Fx15 and Fx18 (46_timers_keys.md R107 to R109): O46. -/

namespace Sys2Proof

theorem decodeF_eq_ldVxDT {w : Word} (hk : fieldKK w = 0x07) : decodeF w = .ok (.ldVxDT (fieldX w)) := by
  simp [decodeF, hk]

theorem decodeF_eq_ldDTVx {w : Word} (hk : fieldKK w = 0x15) : decodeF w = .ok (.ldDTVx (fieldX w)) := by
  simp [decodeF, hk]

theorem decodeF_eq_ldSTVx {w : Word} (hk : fieldKK w = 0x18) : decodeF w = .ok (.ldSTVx (fieldX w)) := by
  simp [decodeF, hk]

end Sys2Proof

namespace Sys2Proof.Machine

/-- What a write of the delay timer leaves unchanged. -/
theorem State.setDT_frame (s : State) (b : Byte) :
    SameMemory s (s.setDT b) ∧ s.setDT b = { s with dt := (s.setDT b).dt } :=
  ⟨sameMemory_of_eq (s.setDT_mem b) (s.setDT_params b), rfl⟩

/-- What a write of the sound timer leaves unchanged. -/
theorem State.setST_frame (s : State) (b : Byte) :
    SameMemory s (s.setST b) ∧ s.setST b = { s with st := (s.setST b).st } :=
  ⟨sameMemory_of_eq (s.setST_mem b) (s.setST_params b), rfl⟩

theorem exec_ldVxDT (x : Nibble) (s : State) : exec (.ldVxDT x) s = .next (s.setV x s.dt) := rfl

theorem exec_ldDTVx (x : Nibble) (s : State) : exec (.ldDTVx x) s = .next (s.setDT (s.getV x)) := rfl

theorem exec_ldSTVx (x : Nibble) (s : State) : exec (.ldSTVx x) s = .next (s.setST (s.getV x)) := rfl

end Sys2Proof.Machine

namespace Sys2Proof.Proofs

open Sys2Proof.Machine

/-- Settles O46: the execute stage of each is one write, of V[x], of DT or of ST. -/
theorem timerMoves : Obligations.TimerMoves := by
  refine ⟨fun w hc => ?decoding, fun s x => ⟨?ldVxDT, ?ldDTVx, ?ldSTVx⟩⟩
  case decoding =>
    rw [decode_of_category15 hc]
    exact ⟨decodeF_eq_ldVxDT, decodeF_eq_ldDTVx, decodeF_eq_ldSTVx⟩
  case ldVxDT => exact ⟨_, exec_ldVxDT x s, s.getV_setV_same x _, s.setV_frame x _⟩
  case ldDTVx => exact ⟨_, exec_ldDTVx x s, s.setDT_dt _, s.setDT_frame _⟩
  case ldSTVx => exact ⟨_, exec_ldSTVx x s, s.setST_st _, s.setST_frame _⟩

end Sys2Proof.Proofs
end

section
/-! The encoder and the decoder (30_encoding.md R55, R60 to R62): O10, O11, O12, O9; and what later families
share, the categories and secondary keys that no section above needed. -/

namespace Sys2Proof

/-! ### Categories and secondary keys (R60) -/

theorem decode_of_category2 {w : Word} (hc : fieldCat w = 0x2) : decode w = .ok (.call (fieldNNN w)) := by
  simp [decode, hc]

theorem decode_of_category11 {w : Word} (hc : fieldCat w = 0xB) : decode w = .ok (.jpV0 (fieldNNN w)) := by
  simp [decode, hc]

theorem decode_of_category12 {w : Word} (hc : fieldCat w = 0xC) :
    decode w = .ok (.rnd (fieldX w) (fieldKK w)) := by
  simp [decode, hc]

theorem decode_of_category13 {w : Word} (hc : fieldCat w = 0xD) :
    decode w = .ok (.drw (fieldX w) (fieldY w) (fieldN w)) := by
  simp [decode, hc]

theorem decode_of_category14 {w : Word} (hc : fieldCat w = 0xE) : decode w = decodeE w := by
  simp [decode, hc]

theorem decode0_eq_ret {w : Word} (hn : fieldN w = 0xE) : decode0 w = .ok .ret := by
  simp [decode0, hn]

theorem decodeE_eq_skp {w : Word} (hn : fieldN w = 0xE) : decodeE w = .ok (.skp (fieldX w)) := by
  simp [decodeE, hn]

theorem decodeE_eq_sknp {w : Word} (hn : fieldN w = 0x1) : decodeE w = .ok (.sknp (fieldX w)) := by
  simp [decodeE, hn]

theorem decodeF_eq_ldB {w : Word} (hk : fieldKK w = 0x33) : decodeF w = .ok (.ldB (fieldX w)) := by
  simp [decodeF, hk]

theorem decodeF_eq_ldMemVx {w : Word} (hk : fieldKK w = 0x55) : decodeF w = .ok (.ldMemVx (fieldX w)) := by
  simp [decodeF, hk]

theorem decodeF_eq_ldVxMem {w : Word} (hk : fieldKK w = 0x65) : decodeF w = .ok (.ldVxMem (fieldX w)) := by
  simp [decodeF, hk]

/-! ### Decoding a canonical word, by format (R55)

Each lemma turns what a category or a secondary key decodes every word to into what it decodes the word made of
given fields to. -/

theorem decode_encA {c : Nibble} {f : Addr12 → Instr}
    (h : ∀ {w}, fieldCat w = c → decode w = .ok (f (fieldNNN w))) (nnn : Addr12) :
    decode (encA c nnn) = .ok (f nnn) := by
  rw [h (fieldCat_encA c nnn), fieldNNN_encA]

theorem decode_encXK {c : Nibble} {f : Nibble → Byte → Instr}
    (h : ∀ {w}, fieldCat w = c → decode w = .ok (f (fieldX w) (fieldKK w))) (x : Nibble) (kk : Byte) :
    decode (encXK c x kk) = .ok (f x kk) := by
  rw [h (fieldCat_encXK c x kk), fieldX_encXK, fieldKK_encXK]

theorem decode_encXY {c n : Nibble} {f : Nibble → Nibble → Instr}
    (h : ∀ {w}, fieldCat w = c → decode w = .ok (f (fieldX w) (fieldY w))) (x y : Nibble) :
    decode (encXYN c x y n) = .ok (f x y) := by
  rw [h (fieldCat_encXYN c x y n), fieldX_encXYN, fieldY_encXYN]

theorem decode_encXYN {c : Nibble} {f : Nibble → Nibble → Nibble → Instr}
    (h : ∀ {w}, fieldCat w = c → decode w = .ok (f (fieldX w) (fieldY w) (fieldN w))) (x y n : Nibble) :
    decode (encXYN c x y n) = .ok (f x y n) := by
  rw [h (fieldCat_encXYN c x y n), fieldX_encXYN, fieldY_encXYN, fieldN_encXYN]

theorem decode_encXYS {n : Nibble} {f : Nibble → Nibble → Instr}
    (h : ∀ {w}, fieldN w = n → decode8 w = .ok (f (fieldX w) (fieldY w))) (x y : Nibble) :
    decode (encXYN 0x8 x y n) = .ok (f x y) := by
  rw [decode_of_category8 (fieldCat_encXYN _ x y n), h (fieldN_encXYN _ x y n), fieldX_encXYN, fieldY_encXYN]

theorem decode_encXE {y n : Nibble} {f : Nibble → Instr}
    (h : ∀ {w}, fieldN w = n → decodeE w = .ok (f (fieldX w))) (x : Nibble) :
    decode (encXYN 0xE x y n) = .ok (f x) := by
  rw [decode_of_category14 (fieldCat_encXYN _ x y n), h (fieldN_encXYN _ x y n), fieldX_encXYN]

theorem decode_encXF {kk : Byte} {f : Nibble → Instr}
    (h : ∀ {w}, fieldKK w = kk → decodeF w = .ok (f (fieldX w))) (x : Nibble) :
    decode (encXK 0xF x kk) = .ok (f x) := by
  rw [decode_of_category15 (fieldCat_encXK _ x kk), h (fieldKK_encXK _ x kk), fieldX_encXK]

/-- The decoder reads back the instruction of every canonical word. -/
theorem decode_encode (i : Instr) : decode (encode i) = .ok i := by
  cases i
  case cls => exact (decode_of_category0 (by decide)).trans (decode0_eq_cls (by decide))
  case ret => exact (decode_of_category0 (by decide)).trans (decode0_eq_ret (by decide))
  case jp => exact decode_encA decode_of_category1 _
  case call => exact decode_encA decode_of_category2 _
  case seImm => exact decode_encXK decode_of_category3 _ _
  case sneImm => exact decode_encXK decode_of_category4 _ _
  case seReg => exact decode_encXY decode_of_category5 _ _
  case ldImm => exact decode_encXK decode_of_category6 _ _
  case addImm => exact decode_encXK decode_of_category7 _ _
  case ldReg => exact decode_encXYS decode8_eq_ldReg _ _
  case orReg => exact decode_encXYS decode8_eq_orReg _ _
  case andReg => exact decode_encXYS decode8_eq_andReg _ _
  case xorReg => exact decode_encXYS decode8_eq_xorReg _ _
  case addReg => exact decode_encXYS decode8_eq_addReg _ _
  case sub => exact decode_encXYS decode8_eq_sub _ _
  case shr => exact decode_encXYS decode8_eq_shr _ _
  case subn => exact decode_encXYS decode8_eq_subn _ _
  case shl => exact decode_encXYS decode8_eq_shl _ _
  case sneReg => exact decode_encXY decode_of_category9 _ _
  case ldI => exact decode_encA decode_of_category10 _
  case jpV0 => exact decode_encA decode_of_category11 _
  case rnd => exact decode_encXK decode_of_category12 _ _
  case drw => exact decode_encXYN decode_of_category13 _ _ _
  case skp => exact decode_encXE decodeE_eq_skp _
  case sknp => exact decode_encXE decodeE_eq_sknp _
  case ldVxDT => exact decode_encXF decodeF_eq_ldVxDT _
  case ldVxK => exact decode_encXF decodeF_eq_ldVxK _
  case ldDTVx => exact decode_encXF decodeF_eq_ldDTVx _
  case ldSTVx => exact decode_encXF decodeF_eq_ldSTVx _
  case addI => exact decode_encXF decodeF_eq_addI _
  case ldF => exact decode_encXF decodeF_eq_ldF _
  case ldB => exact decode_encXF decodeF_eq_ldB _
  case ldMemVx => exact decode_encXF decodeF_eq_ldMemVx _
  case ldVxMem => exact decode_encXF decodeF_eq_ldVxMem _

/-! ### The aliased words (R62) -/

/-- The middle byte `w[11:4]`, which category 0 ignores, is the two middle nibbles. -/
theorem middleByte_eq_iff (w : Word) :
    w.extractLsb' 4 8 = 0x0E#8 ↔ fieldX w = 0x0 ∧ fieldY w = 0xE := by
  rw [fieldX, fieldY, ← BitVec.toNat_inj, ← BitVec.toNat_inj, ← BitVec.toNat_inj]
  simp only [BitVec.extractLsb'_toNat, Nat.shiftRight_eq_div_pow]
  change w.toNat / 16 % 256 = 14 ↔ w.toNat / 256 % 16 = 0 ∧ w.toNat / 16 % 16 = 14
  omega

/-- R62's list. -/
theorem isAliasedWord_iff (w : Word) :
    isAliasedWord w = true ↔
      (fieldCat w = 0x0 ∧ (fieldN w = 0x0 ∨ fieldN w = 0xE) ∧ ¬(fieldX w = 0x0 ∧ fieldY w = 0xE)) ∨
      (fieldCat w = 0x5 ∧ fieldN w ≠ 0x0) ∨ (fieldCat w = 0x9 ∧ fieldN w ≠ 0x0) ∨
      (fieldCat w = 0xE ∧ fieldN w = 0xE ∧ fieldY w ≠ 0x9) ∨
      (fieldCat w = 0xE ∧ fieldN w = 0x1 ∧ fieldY w ≠ 0xA) := by
  rw [← middleByte_eq_iff]
  unfold isAliasedWord
  split
  case h_5 h0 h5 h9 hE => simp_all
  all_goals next hc => simp [hc]

/-- A canonical word is none of R62's: the digits that the decoder ignores are the pattern's. -/
theorem isAliasedWord_encode (i : Instr) : isAliasedWord (encode i) = false := by
  cases i
  case cls => decide
  case ret => decide
  case jp => simp [encode, isAliasedWord, fieldCat_encA]
  case call => simp [encode, isAliasedWord, fieldCat_encA]
  case ldI => simp [encode, isAliasedWord, fieldCat_encA]
  case jpV0 => simp [encode, isAliasedWord, fieldCat_encA]
  case seReg => simp [encode, isAliasedWord, fieldCat_encXYN, fieldN_encXYN]
  case sneReg => simp [encode, isAliasedWord, fieldCat_encXYN, fieldN_encXYN]
  case skp => simp [encode, isAliasedWord, fieldCat_encXYN, fieldY_encXYN, fieldN_encXYN]
  case sknp => simp [encode, isAliasedWord, fieldCat_encXYN, fieldY_encXYN, fieldN_encXYN]
  all_goals simp [encode, isAliasedWord, fieldCat_encXK, fieldCat_encXYN]

/-! ### Encoding a decoded word, by format (R55): a word is made of its fields -/

theorem encA_of_field {w : Word} {c : Nibble} (hc : fieldCat w = c) : encA c (fieldNNN w) = w := by
  subst hc
  unfold encA fieldCat fieldNNN
  apply BitVec.eq_of_getLsbD_eq
  intro k hk
  simp only [BitVec.getLsbD_append, BitVec.getLsbD_extractLsb']
  interval_cases k <;> simp

theorem encXK_of_field {w : Word} {c : Nibble} {kk : Byte} (hc : fieldCat w = c) (hk : fieldKK w = kk) :
    encXK c (fieldX w) kk = w := by
  subst hc hk
  unfold encXK fieldCat fieldX fieldKK
  apply BitVec.eq_of_getLsbD_eq
  intro k hk
  simp only [BitVec.getLsbD_append, BitVec.getLsbD_extractLsb']
  interval_cases k <;> simp

theorem encXYN_of_field {w : Word} {c y n : Nibble} (hc : fieldCat w = c) (hy : fieldY w = y)
    (hn : fieldN w = n) : encXYN c (fieldX w) y n = w := by
  subst hc hy hn
  unfold encXYN fieldCat fieldX fieldY fieldN
  apply BitVec.eq_of_getLsbD_eq
  intro k hk
  simp only [BitVec.getLsbD_append, BitVec.getLsbD_extractLsb']
  interval_cases k <;> simp

/-- Category 0: that the word is not aliased fixes its two middle nibbles. -/
theorem encode_of_decode0 {w : Word} {i : Instr} (hc : fieldCat w = 0x0) (h : decode0 w = .ok i)
    (ha : isAliasedWord w = false) : encode i = w := by
  have middle (hn : fieldN w = 0x0 ∨ fieldN w = 0xE) : fieldX w = 0x0 ∧ fieldY w = 0xE := by
    by_contra hne
    rw [(isAliasedWord_iff w).2 (.inl ⟨hc, hn, hne⟩)] at ha
    cases ha
  unfold decode0 at h
  split at h
  · next hn =>
    cases h
    obtain ⟨hx, hy⟩ := middle (.inl hn)
    rw [← encXYN_of_field hc hy hn, hx]
    rfl
  · next hn =>
    cases h
    obtain ⟨hx, hy⟩ := middle (.inr hn)
    rw [← encXYN_of_field hc hy hn, hx]
    rfl
  · cases h

theorem encode_of_decode8 {w : Word} {i : Instr} (hc : fieldCat w = 0x8) (h : decode8 w = .ok i) :
    encode i = w := by
  unfold decode8 at h
  split at h
  case h_10 => cases h
  all_goals next hn => cases h; exact encXYN_of_field hc rfl hn

/-- Category E: that the word is not aliased fixes its `y` nibble. -/
theorem encode_of_decodeE {w : Word} {i : Instr} (hc : fieldCat w = 0xE) (h : decodeE w = .ok i)
    (ha : isAliasedWord w = false) : encode i = w := by
  rw [← Bool.not_eq_true, isAliasedWord_iff] at ha
  unfold decodeE at h
  split at h
  · next hn =>
    cases h
    exact encXYN_of_field hc (by_contra fun hy => ha (.inr (.inr (.inr (.inl ⟨hc, hn, hy⟩))))) hn
  · next hn =>
    cases h
    exact encXYN_of_field hc (by_contra fun hy => ha (.inr (.inr (.inr (.inr ⟨hc, hn, hy⟩))))) hn
  · cases h

theorem encode_of_decodeF {w : Word} {i : Instr} (hc : fieldCat w = 0xF) (h : decodeF w = .ok i) :
    encode i = w := by
  unfold decodeF at h
  split at h
  case h_10 => cases h
  all_goals next hk => cases h; exact encXK_of_field hc hk

/-- Categories 5 and 9: that the word is not aliased fixes its low nibble. -/
theorem fieldN_of_not_aliased {w : Word} (hc : fieldCat w = 0x5 ∨ fieldCat w = 0x9)
    (ha : isAliasedWord w = false) : fieldN w = 0x0 := by
  rw [← Bool.not_eq_true, isAliasedWord_iff] at ha
  by_contra hn
  rcases hc with hc | hc
  · exact ha (.inr (.inl ⟨hc, hn⟩))
  · exact ha (.inr (.inr (.inl ⟨hc, hn⟩)))

/-- A decoded word that is not aliased is the canonical word of its instruction. -/
theorem encode_of_decode {w : Word} {i : Instr} (h : decode w = .ok i) (ha : isAliasedWord w = false) :
    encode i = w := by
  unfold decode at h
  split at h
  case h_1 hc => exact encode_of_decode0 hc h ha
  case h_9 hc => exact encode_of_decode8 hc h
  case h_15 hc => exact encode_of_decodeE hc h ha
  case h_16 =>
    have hc : fieldCat w = 0xF := by
      simp only [imp_false] at *
      bv_omega
    exact encode_of_decodeF hc h
  case h_6 hc => cases h; exact encXYN_of_field hc rfl (fieldN_of_not_aliased (.inl hc) ha)
  case h_10 hc => cases h; exact encXYN_of_field hc rfl (fieldN_of_not_aliased (.inr hc) ha)
  case h_14 hc => cases h; exact encXYN_of_field hc rfl rfl
  case h_2 hc => cases h; exact encA_of_field hc
  case h_3 hc => cases h; exact encA_of_field hc
  case h_11 hc => cases h; exact encA_of_field hc
  case h_12 hc => cases h; exact encA_of_field hc
  all_goals next hc => cases h; exact encXK_of_field hc rfl

/-- An aliased word is no unassigned word and no canonical one. -/
theorem decode_of_aliased {w : Word} (ha : isAliasedWord w = true) :
    ∃ i, decode w = .ok i ∧ encode i ≠ w := by
  cases hd : decode w with
  | error why => simp [isAliasedWord_of_decode_error ⟨why, hd⟩] at ha
  | ok i =>
    refine ⟨i, rfl, fun he => ?_⟩
    simp [← he, isAliasedWord_encode] at ha

end Sys2Proof

namespace Sys2Proof.Machine

/-- R118: a word that DECODE_ALIAS refuses is refused. -/
theorem step_of_refusesWord {s : State} {w : Word} (hf : s.fault = none) (hw : fetchWord s = some w)
    (hr : refusesWord s.params w = true) : step s = .refused .aliasedWord := by
  simp [step, hf, hw, hr]

end Sys2Proof.Machine

namespace Sys2Proof.Proofs

open Sys2Proof.Machine

/-- Settles O10: per format the decoder reads the fields that the encoder wrote, and the digits that it ignores
are those of the pattern. -/
theorem decodeEncodeRoundTrip : Obligations.DecodeEncodeRoundTrip :=
  fun i => ⟨decode_encode i, isAliasedWord_encode i⟩

/-- Settles O11: a word is made of its fields, and outside R62's list the digits that the decoder ignores are
the pattern's. -/
theorem encodeDecodeRoundTrip : Obligations.EncodeDecodeRoundTrip :=
  fun _ _ => encode_of_decode

/-- Settles O12: an aliased word is no unassigned one and, by the round trip, no canonical one. -/
theorem aliasedWords : Obligations.AliasedWords := by
  refine fun w => ⟨isAliasedWord_iff w, decode_of_aliased, fun s ha hp hf hpc hw => ?_⟩
  exact step_of_refusesWord hf (hw ▸ fetchWord_of_le hpc) (by simp [refusesWord, ha, hp])

/-- Settles O9: the decoder evaluates each of the words. -/
theorem patternWordsDecode : Obligations.PatternWordsDecode := by
  unfold Obligations.PatternWordsDecode
  decide

end Sys2Proof.Proofs
end

section
/-! What every step keeps (10_state.md R17, R22; 30_encoding.md R66): O14, O15, O16; and what the frames of a step
share, the inversion of an execute stage that answers a state (R19 to R33, 60_exceptions.md R112, R113). -/

namespace Sys2Proof.Machine

/-! ### The end of a step -/

@[simp] theorem endStep_mem (s0 t : State) : (endStep s0 t).mem = t.mem := by unfold endStep; split <;> rfl
@[simp] theorem endStep_params (s0 t : State) : (endStep s0 t).params = t.params := by
  unfold endStep; split <;> rfl
@[simp] theorem endStep_pc (s0 t : State) : (endStep s0 t).pc = t.pc := by unfold endStep; split <;> rfl
@[simp] theorem endStep_stack (s0 t : State) : (endStep s0 t).stack = t.stack := by
  unfold endStep; split <;> rfl
@[simp] theorem endStep_sp (s0 t : State) : (endStep s0 t).sp = t.sp := by unfold endStep; split <;> rfl
@[simp] theorem endStep_keys (s0 t : State) : (endStep s0 t).keys = t.keys := by unfold endStep; split <;> rfl
@[simp] theorem endStep_loaded (s0 t : State) : (endStep s0 t).loaded = t.loaded := by
  unfold endStep; split <;> rfl
@[simp] theorem endStep_started (s0 t : State) : (endStep s0 t).started = t.started := by
  unfold endStep; split <;> rfl

/-! ### Which elements an instruction may write (R19, R23 to R31, R39) -/

/-- `s` with the elements that the rule of `i` names taken from `t`. -/
def elementsWritten (i : Instr) (s t : State) : State :=
  match i with
  | .cls => { s with display := t.display }
  | .drw _ _ _ => { s with v := t.v, display := t.display }
  | .ret => { s with sp := t.sp, pc := t.pc }
  | .call _ => { s with stack := t.stack, sp := t.sp, pc := t.pc }
  | .jp _ | .jpV0 _ | .seImm _ _ | .sneImm _ _ | .seReg _ _ | .sneReg _ _ | .skp _ | .sknp _ =>
    { s with pc := t.pc }
  | .ldVxK _ => { s with v := t.v, pc := t.pc }
  | .ldI _ | .addI _ | .ldF _ => { s with i := t.i }
  | .ldB _ | .ldMemVx _ => { s with mem := t.mem }
  | .ldDTVx _ => { s with dt := t.dt }
  | .ldSTVx _ => { s with st := t.st }
  | .rnd _ _ => { s with v := t.v, rng := t.rng }
  | .ldImm _ _ | .addImm _ _ | .ldReg _ _ | .orReg _ _ | .andReg _ _ | .xorReg _ _ | .addReg _ _ | .sub _ _
  | .shr _ _ | .subn _ _ | .shl _ _ | .ldVxDT _ | .ldVxMem _ => { s with v := t.v }

theorem State.skipIf_eq (s : State) (c : Bool) : s.skipIf c = { s with pc := (s.skipIf c).pc } := by
  cases c <;> rfl

/-- Inversion of the execute stage: an instruction that answers a state took a fault of R112, or wrote only
elements that its rule names. -/
theorem exec_next_cases {i : Instr} {s t : State} (h : exec i s = .next t) :
    (∃ k a, k ≠ .fetchBounds ∧ t = enterFault (faultOf s k a) s) ∨ t = elementsWritten i s t := by
  cases i
  case ret =>
    rcases popAndJump_cases s with ⟨_, e⟩ | ⟨_, e⟩ | ⟨_, e⟩ <;> cases e.symm.trans h
    · exact .inl ⟨_, _, by decide, rfl⟩
    · exact .inr rfl
  case call nnn =>
    rcases pushAndJump_cases (addrOperand nnn) s with ⟨_, e⟩ | ⟨_, e⟩ | ⟨_, e⟩ <;> cases e.symm.trans h
    · exact .inl ⟨_, _, by decide, rfl⟩
    · exact .inr rfl
  case skp x =>
    rcases skipOnKey_cases x true s with ⟨_, e⟩ | ⟨_, e⟩ <;> cases e.symm.trans h
    · exact .inl ⟨_, _, by decide, rfl⟩
    · exact .inr (s.skipIf_eq _)
  case sknp x =>
    rcases skipOnKey_cases x false s with ⟨_, e⟩ | ⟨_, e⟩ <;> cases e.symm.trans h
    · exact .inl ⟨_, _, by decide, rfl⟩
    · exact .inr (s.skipIf_eq _)
  case drw x y n =>
    rcases execDrw_cases x y n s with ⟨_, _, e⟩ | ⟨_, ⟨_, _, e⟩ | ⟨_, e⟩⟩ <;> cases e.symm.trans h
    · exact .inl ⟨_, _, by decide, rfl⟩
    · exact .inl ⟨_, _, by decide, rfl⟩
    · exact .inr rfl
  case ldB x =>
    rcases storeThroughIndex_cases (decimalDigits (s.getV x)) s with ⟨_, _, e⟩ | ⟨_, e⟩ <;> cases e.symm.trans h
    · exact .inl ⟨_, _, by decide, rfl⟩
    · exact .inr (State.storeBytes_eq _ _ _)
  case ldMemVx x =>
    rcases storeThroughIndex_cases (s.registersUpTo x) s with ⟨_, _, e⟩ | ⟨_, e⟩ <;> cases e.symm.trans h
    · exact .inl ⟨_, _, by decide, rfl⟩
    · exact .inr (State.storeBytes_eq _ _ _)
  case ldVxMem x =>
    rcases execLdVxMem_cases x s with ⟨_, e⟩ | ⟨_, e⟩ <;> cases e.symm.trans h
    · exact .inl ⟨_, _, by decide, rfl⟩
    · exact .inr (State.setVs_eq _ _ _)
  case ldVxK x =>
    rcases execLdVxK_cases x s with ⟨_, _, e⟩ | ⟨_, e⟩ <;> cases e.symm.trans h
    · exact .inr rfl
    · exact .inr rfl
  case seImm | sneImm | seReg | sneReg => all_goals cases h; exact .inr (s.skipIf_eq _)
  all_goals cases h; exact .inr rfl

section
variable {i : Instr} {s t : State} (h : exec i s = .next t)
include h

/-- An element that a fault leaves alone and that `i` does not name is as before. -/
theorem exec_keeps {α : Type} (element : State → α) (hfault : ∀ r, element (enterFault r s) = element s)
    (hwritten : element (elementsWritten i s t) = element s) : element t = element s := by
  rcases exec_next_cases h with ⟨k, a, _, e⟩ | e
  · rw [e, hfault]
  · rw [e, hwritten]

theorem exec_mem_of_ne (hi : ∀ x, i ≠ .ldB x ∧ i ≠ .ldMemVx x) : t.mem = s.mem := by
  refine exec_keeps h State.mem (fun _ => rfl) ?_
  cases i
  case ldB x => exact absurd rfl (hi x).1
  case ldMemVx x => exact absurd rfl (hi x).2
  all_goals rfl

theorem exec_i_of_ne (hi : ∀ n x, i ≠ .ldI n ∧ i ≠ .addI x ∧ i ≠ .ldF x) : t.i = s.i := by
  refine exec_keeps h State.i (fun _ => rfl) ?_
  cases i
  case ldI n => exact absurd rfl (hi n 0).1
  case addI x => exact absurd rfl (hi 0 x).2.1
  case ldF x => exact absurd rfl (hi 0 x).2.2
  all_goals rfl

theorem exec_stack_of_ne (hi : ∀ n, i ≠ .call n) : t.stack = s.stack := by
  refine exec_keeps h State.stack (fun _ => rfl) ?_
  cases i
  case call n => exact absurd rfl (hi n)
  all_goals rfl

theorem exec_sp_of_ne (hi : ∀ n, i ≠ .call n ∧ i ≠ .ret) : t.sp = s.sp := by
  refine exec_keeps h State.sp (fun _ => rfl) ?_
  cases i
  case call n => exact absurd rfl (hi n).1
  case ret => exact absurd rfl (hi 0).2
  all_goals rfl

theorem exec_dt_of_ne (hi : ∀ x, i ≠ .ldDTVx x) : t.dt = s.dt :=
  (exec_timers h).1.trans (delayAfterExecute_of_ne (fun x e => hi x (Except.ok.inj e)) s)

theorem exec_st_of_ne (hi : ∀ x, i ≠ .ldSTVx x) : t.st = s.st :=
  (exec_timers h).2.trans (soundAfterExecute_of_ne (fun x e => hi x (Except.ok.inj e)) s)

theorem exec_display_of_ne (hi : ∀ x y n, i ≠ .cls ∧ i ≠ .drw x y n) : t.display = s.display := by
  refine exec_keeps h State.display (fun _ => rfl) ?_
  cases i
  case cls => exact absurd rfl (hi 0 0 0).1
  case drw x y n => exact absurd rfl (hi x y n).2
  all_goals rfl

theorem exec_rng_of_ne (hi : ∀ x k, i ≠ .rnd x k) : t.rng = s.rng := by
  refine exec_keeps h State.rng (fun _ => rfl) ?_
  cases i
  case rnd x k => exact absurd rfl (hi x k)
  all_goals rfl

theorem exec_params : t.params = s.params :=
  exec_keeps h State.params (fun _ => rfl) (by cases i <;> rfl)

theorem exec_keys : t.keys = s.keys :=
  exec_keeps h State.keys (fun _ => rfl) (by cases i <;> rfl)

theorem exec_currentOpcode : t.currentOpcode = s.currentOpcode :=
  exec_keeps h State.currentOpcode (fun _ => rfl) (by cases i <;> rfl)

theorem exec_loaded : t.loaded = s.loaded :=
  exec_keeps h State.loaded (fun _ => rfl) (by cases i <;> rfl)

/-- R19, R20: a register that the instruction may not write is as before. -/
theorem exec_getV_of_not_mayWriteV {r : Nibble} (hr : mayWriteV i r = false) : t.getV r = s.getV r := by
  cases i
  case ldImm | addImm | rnd | ldReg | orReg | andReg | xorReg | ldVxDT =>
    all_goals cases h; exact State.getV_setV_other _ _ (by simpa [mayWriteV] using hr)
  case addReg | sub | shr | subn | shl =>
    all_goals
      simp only [mayWriteV, Bool.or_eq_false_iff, beq_eq_false_iff_ne] at hr
      cases h
      exact (State.setVF_setV_frame s _ _ _).1 r hr.1 hr.2
  case ldVxK x =>
    rcases execLdVxK_cases x s with ⟨_, _, e⟩ | ⟨_, e⟩ <;> cases e.symm.trans h
    · exact State.getV_setV_other _ _ (by simpa [mayWriteV] using hr)
    · rfl
  case drw x y n =>
    rcases execDrw_cases x y n s with ⟨_, _, e⟩ | ⟨_, ⟨_, _, e⟩ | ⟨_, e⟩⟩ <;> cases e.symm.trans h
    · rfl
    · rfl
    · rw [State.getV_setVF, if_neg (by simpa [mayWriteV] using hr)]; rfl
  case ldVxMem x =>
    have hx : x.toNat < r.toNat := by simpa [mayWriteV] using hr
    rcases execLdVxMem_cases x s with ⟨_, e⟩ | ⟨_, e⟩ <;> cases e.symm.trans h
    · rfl
    · rw [State.getV_setVs _ _ _ _ (by simp [registerCount]; omega), dif_neg (by simp [registerCount]; omega)]
  all_goals exact State.getV_congr (exec_keeps h State.v (fun _ => rfl) rfl) r

end

/-! ### Well-formed states (R17) -/

theorem faultOf_wellFormed {k : FaultKind} (hk : k ≠ .fetchBounds) (s : State) (a : Nat) :
    (faultOf s k a).wellFormed = true := by
  simp [FaultRecord.wellFormed, faultOf, hk]

theorem fetchFault_wellFormed {s : State} (h : s.WellFormed) : (fetchFault s).WellFormed := by
  obtain ⟨hsp, _, hm⟩ := h
  exact ⟨hsp, rfl, hm⟩

theorem beginExecute_wellFormed (w : Word) {s : State} (h : s.WellFormed) : (beginExecute w s).WellFormed := h

theorem endStep_wellFormed (s0 : State) {t : State} (h : t.WellFormed) : (endStep s0 t).WellFormed := by
  simpa only [State.WellFormed, endStep_sp, endStep_fault, endStep_params, endStep_mem] using h

/-- A store through I keeps the canonical form of memory, and so does its fault. -/
theorem storeThroughIndex_mem_wf {bs : List Byte} {s t : State} (h : storeThroughIndex bs s = .next t)
    (hm : Memory.wf s.params.font s.mem) : Memory.wf s.params.font t.mem := by
  rcases storeThroughIndex_cases bs s with ⟨_, _, e⟩ | ⟨_, e⟩ <;> cases e.symm.trans h
  · exact hm
  · exact s.storeBytes_wf _ _ hm

section
variable {i : Instr} {s t : State} (h : exec i s = .next t)
include h

theorem exec_mem_wf (hm : Memory.wf s.params.font s.mem) : Memory.wf t.params.font t.mem := by
  rw [exec_params h]
  cases i
  case ldB x => exact storeThroughIndex_mem_wf h hm
  case ldMemVx x => exact storeThroughIndex_mem_wf h hm
  all_goals rw [exec_mem_of_ne h fun _ => ⟨nofun, nofun⟩]; exact hm

/-- R25: 2nnn pushes below 16 only and 00EE pops above 0 only. -/
theorem exec_sp_le (hs : s.sp.toNat ≤ 16) : t.sp.toNat ≤ 16 := by
  cases i
  case call nnn =>
    rcases pushAndJump_cases (addrOperand nnn) s with ⟨_, e⟩ | ⟨hlt, e⟩ | ⟨_, e⟩ <;> cases e.symm.trans h
    · exact hs
    · change (s.sp + 1).toNat ≤ 16
      bv_omega
  case ret =>
    rcases popAndJump_cases s with ⟨_, e⟩ | ⟨hpos, e⟩ | ⟨_, e⟩ <;> cases e.symm.trans h
    · exact hs
    · change (s.sp - 1).toNat ≤ 16
      bv_omega
  all_goals rw [exec_sp_of_ne h fun _ => ⟨nofun, nofun⟩]; exact hs

theorem exec_fault_wellFormed (hf : s.fault.all FaultRecord.wellFormed = true) :
    t.fault.all FaultRecord.wellFormed = true := by
  rcases exec_next_cases h with ⟨k, a, hk, rfl⟩ | e
  · exact faultOf_wellFormed hk s a
  · have hfault : t.fault = s.fault := by rw [e]; cases i <;> rfl
    rwa [hfault]

theorem exec_wellFormed (hs : s.WellFormed) : t.WellFormed := by
  obtain ⟨hsp, hf, hm⟩ := hs
  exact ⟨exec_sp_le h hsp, exec_fault_wellFormed h hf, exec_mem_wf h hm⟩

end

/-- Inversion of a word's execute stage: it took a fault of R112, or it completed. -/
theorem executeWord_next_cases {w : Word} {s t : State} (h : executeWord w s = .next t) :
    (∃ k a, k ≠ .fetchBounds ∧ t = enterFault (faultOf s k a) s) ∨ Completes s t := by
  rcases executeWord_cases w s with ⟨i, _, e⟩ | ⟨_, _, e⟩
  · rcases exec_cases i s with ⟨u, hu, hc⟩ | ⟨k, a, hk, hu⟩ | ⟨_, hu⟩ <;> cases (e.trans hu).symm.trans h
    · exact .inr hc
    · exact .inl ⟨k, a, hk, rfl⟩
  · cases e.symm.trans h
    exact .inr ⟨rfl, rfl, rfl, rfl, rfl, rfl⟩

theorem executeWord_wellFormed {w : Word} {s t : State} (h : executeWord w s = .next t) (hs : s.WellFormed) :
    t.WellFormed := by
  rcases executeWord_cases w s with ⟨i, _, e⟩ | ⟨_, _, e⟩
  · exact exec_wellFormed (e.symm.trans h) hs
  · cases e.symm.trans h
    exact hs

/-- R17: a step that answers a state keeps well-formedness. -/
theorem step_wellFormed {s t : State} (h : step s = .next t) (hs : s.WellFormed) : t.WellFormed := by
  obtain ⟨_, ⟨_, rfl⟩ | ⟨w, u, _, _, hu, rfl⟩⟩ := step_next_cases h
  · exact fetchFault_wellFormed hs
  · exact endStep_wellFormed s (executeWord_wellFormed hu (beginExecute_wellFormed w hs))

/-! ### Steps that answer a state (R66) -/

theorem executeWord_completes (w : Word) {s : State} (hsp : s.sp.toNat ≤ 16) :
    ∃ t, executeWord w s = .next t := by
  rcases executeWord_cases w s with ⟨i, _, e⟩ | ⟨_, _, e⟩
  · rcases exec_cases i s with ⟨t, ht, _⟩ | ⟨k, a, _, ht⟩ | ⟨hlt, _⟩
    · exact ⟨t, e.trans ht⟩
    · exact ⟨_, e.trans ht⟩
    · omega
  · exact ⟨s, e⟩

/-- With SP in its range, only a fault before the step and R118's refusal keep a step from answering a state. -/
theorem step_cases {s : State} (hsp : s.sp.toNat ≤ 16) :
    (∃ t, step s = .next t) ∨ (s.fault ≠ none ∧ step s = .refused .machineFaulted) ∨
      (s.params.decodeAlias = .refuse ∧ step s = .refused .aliasedWord) := by
  by_cases hf : s.fault = none
  case neg => exact .inr (.inl ⟨hf, by simp [step, Option.isSome_iff_ne_none.2 hf]⟩)
  case pos =>
    rcases fetchWord_cases s with ⟨_, hw⟩ | ⟨_, hw⟩
    · exact .inl ⟨_, by simp [step, hf, hw]; rfl⟩
    · cases hr : refusesWord s.params _ with
      | true =>
        refine .inr (.inr ⟨?_, step_of_refusesWord hf hw hr⟩)
        simp only [refusesWord, Bool.and_eq_true, beq_iff_eq] at hr
        exact hr.2
      | false =>
        obtain ⟨u, hu⟩ := executeWord_completes _ (s := beginExecute _ s) hsp
        exact .inl ⟨_, step_of_executeWord_next hf hw hr hu⟩

/-! ### The bounds of pc and of the stack entries (R22, R74) -/

theorem skipIf_pc_le (s : State) (c : Bool) (hpc : s.pc.toNat ≤ 0x1000) : (s.skipIf c).pc.toNat ≤ 0x1002 := by
  rw [State.skipIf_pc]
  split <;> bv_omega

theorem skipOnKey_pc_le {x : Nibble} {pressed : Bool} {s t : State} (h : skipOnKey x pressed s = .next t)
    (hpc : 2 ≤ s.pc.toNat ∧ s.pc.toNat ≤ 0x1000) : t.pc.toNat ≤ 0x1002 := by
  rcases skipOnKey_cases x pressed s with ⟨_, e⟩ | ⟨_, e⟩ <;> cases e.symm.trans h
  · change (s.pc - 2).toNat ≤ 0x1002
    bv_omega
  · exact skipIf_pc_le s _ hpc.2

/-- nnn + V[0] does not wrap (R77). -/
theorem jumpV0_toNat (nnn : Addr12) (b : Byte) :
    (addrOperand nnn + byteOperand b).toNat = nnn.toNat + b.toNat := by
  have hn : nnn.toNat < 4096 := nnn.isLt
  have hb : b.toNat < 256 := b.isLt
  rw [BitVec.toNat_add, addrOperand_toNat, byteOperand_toNat]
  omega

section
variable {i : Instr} {s t : State} (h : exec i s = .next t)
include h

/-- R22: the greatest target is that of Bnnn, 0xFFF + 0xFF. -/
theorem exec_pc_le (hpc : 2 ≤ s.pc.toNat ∧ s.pc.toNat ≤ 0x1000)
    (hst : ∀ k : Fin 16, s.stack[k].toNat ≤ 0x1000) : t.pc.toNat ≤ 0x10FE := by
  have hfault : (s.pc - 2).toNat ≤ 0x10FE := by bv_omega
  cases i
  case jp nnn =>
    cases h
    rw [State.setPc_pc, addrOperand_toNat]
    have := nnn.isLt; omega
  case jpV0 nnn =>
    cases h
    rw [State.setPc_pc, jumpV0_toNat]
    have := nnn.isLt; have := (s.getV 0).isLt; omega
  case call nnn =>
    rcases pushAndJump_cases (addrOperand nnn) s with ⟨_, e⟩ | ⟨_, e⟩ | ⟨_, e⟩ <;> cases e.symm.trans h
    · exact hfault
    · rw [State.setFrame_pc, addrOperand_toNat]
      have := nnn.isLt; omega
  case ret =>
    rcases popAndJump_cases s with ⟨_, e⟩ | ⟨hsp, e⟩ | ⟨_, e⟩ <;> cases e.symm.trans h
    · exact hfault
    · exact (hst ⟨s.sp.toNat - 1, by omega⟩).trans (by decide)
  case seImm | sneImm | seReg | sneReg =>
    all_goals cases h; exact (skipIf_pc_le s _ hpc.2).trans (by decide)
  case skp x => exact (skipOnKey_pc_le h hpc).trans (by decide)
  case sknp x => exact (skipOnKey_pc_le h hpc).trans (by decide)
  case ldVxK x =>
    rcases execLdVxK_cases x s with ⟨_, _, e⟩ | ⟨_, e⟩ <;> cases e.symm.trans h
    · exact hpc.2.trans (by decide)
    · exact hfault
  all_goals
    rcases exec_next_cases h with ⟨_, _, _, e⟩ | e
    · rw [e]; exact hfault
    · rw [e]; exact hpc.2.trans (by decide)

/-- R74: 2nnn pushes the advanced pc, and no other instruction writes an entry. -/
theorem exec_stack_le (hpc : s.pc.toNat ≤ 0x1000) (hst : ∀ k : Fin 16, s.stack[k].toNat ≤ 0x1000)
    (k : Fin 16) : t.stack[k].toNat ≤ 0x1000 := by
  cases i
  case call nnn =>
    rcases pushAndJump_cases (addrOperand nnn) s with ⟨_, e⟩ | ⟨hlt, e⟩ | ⟨_, e⟩ <;> cases e.symm.trans h
    · exact hst k
    · rw [State.setFrame_stack, Fin.getElem_fin, Vector.getElem_set]
      split
      · exact hpc
      · exact hst k
  all_goals rw [exec_stack_of_ne h nofun]; exact hst k

end

/-- The execute stage of a word that was fetched keeps the bounds. -/
theorem executeWord_pcBounded {w : Word} {s t : State} (h : executeWord w s = .next t)
    (hpc : 2 ≤ s.pc.toNat ∧ s.pc.toNat ≤ 0x1000) (hst : ∀ k : Fin 16, s.stack[k].toNat ≤ 0x1000) :
    t.PcBounded := by
  rcases executeWord_cases w s with ⟨i, _, e⟩ | ⟨_, _, e⟩
  · exact ⟨exec_pc_le (e.symm.trans h) hpc hst, exec_stack_le (e.symm.trans h) hpc.2 hst⟩
  · cases e.symm.trans h
    exact ⟨hpc.2.trans (by decide), hst⟩

theorem pc_le_of_fetchWord {s : State} {w : Word} (h : fetchWord s = some w) : s.pc.toNat ≤ 0xFFE := by
  rcases fetchWord_cases s with ⟨_, hn⟩ | ⟨hpc, _⟩
  · cases hn.symm.trans h
  · exact hpc

theorem step_pcBounded {s t : State} (h : step s = .next t) (hs : s.PcBounded) : t.PcBounded := by
  obtain ⟨_, ⟨_, rfl⟩ | ⟨w, u, hw, _, hu, rfl⟩⟩ := step_next_cases h
  · exact hs
  · have hpc := pc_le_of_fetchWord hw
    have hadvanced : 2 ≤ (s.pc + 2).toNat ∧ (s.pc + 2).toNat ≤ 0x1000 := by bv_omega
    have hu := executeWord_pcBounded hu hadvanced hs.2
    simpa only [State.PcBounded, endStep_pc, endStep_stack] using hu

end Sys2Proof.Machine

namespace Sys2Proof.Proofs

open Sys2Proof.Machine

/-- Settles O14: SP in its range excludes the model's own stop, and each part of well-formedness is kept by the
execute stage, whatever it answers. -/
theorem stepKeepsWellFormed : Obligations.StepKeepsWellFormed := by
  intro s hs
  rcases step_cases hs.1 with ⟨t, ht⟩ | hrefused
  · exact .inl ⟨t, ht, step_wellFormed ht hs⟩
  · exact .inr hrefused

/-- Settles O16: a word that was fetched stands at 0xFFE at most, so the advanced pc, which is what 2nnn pushes,
is at most 0x1000, and no target exceeds 0xFFF + 0xFF. -/
theorem stepKeepsPcBounded : Obligations.StepKeepsPcBounded :=
  fun _ _ hs h => step_pcBounded h hs

/-- Settles O15: what `step_cases` lists beside a next state is excluded by the hypotheses. -/
theorem everyStepCompletes : Obligations.EveryStepCompletes := by
  intro s hsp hf hp
  rcases step_cases hsp with hnext | ⟨hfault, _⟩ | ⟨hrefuse, _⟩
  · exact hnext
  · exact absurd hf hfault
  · cases hp.symm.trans hrefuse

end Sys2Proof.Proofs
end

section
/-! Faults, frames of a step, reset and load (10_state.md R19 to R35, 60_exceptions.md R112 to R115,
70_reset_and_hazards.md R126, R128): O17 to O20, O1 to O3, O5, O6, O8, O13, O21. -/

namespace Sys2Proof.Machine

/-! ### Precise faults (R113, R114) -/

/-- The fault of a word's execute stage, seen from the state before the step: the advance of pc and the new
`current_opcode` are undone. -/
theorem endStep_enterFault (w : Word) (s : State) (k : FaultKind) (a : Nat) :
    endStep s (enterFault (faultOf (beginExecute w s) k a) (beginExecute w s)) =
      { s with
        started := true
        fault := some { kind := k, faultPc := s.pc, opcode := some w, addr := some a } } := by
  have hpc : s.pc + 2 - 2 = s.pc := BitVec.add_sub_cancel s.pc 2
  rw [endStep_of_fault s rfl]
  simp only [enterFault, faultOf, beginExecute, hpc]

/-- Inversion of a step that answers a fault: at fetch, or in the execute stage of the word at pc. -/
theorem step_fault_cases {s t : State} (h : step s = .next t) (ht : t.fault ≠ none) :
    (0xFFF ≤ s.pc.toNat ∧ t = fetchFault s) ∨
    (s.pc.toNat ≤ 0xFFE ∧ ∃ k a, k ≠ .fetchBounds ∧
      t = { s with
        started := true
        fault := some {
          kind := k
          faultPc := s.pc
          opcode := some (wordOfBytes (s.readByte s.pc.toNat) (s.readByte (s.pc.toNat + 1)))
          addr := some a } }) := by
  obtain ⟨hf, ⟨hn, rfl⟩ | ⟨w, u, hw, _, hu, rfl⟩⟩ := step_next_cases h
  · rcases fetchWord_cases s with ⟨hpc, _⟩ | ⟨_, hs⟩
    · exact .inl ⟨hpc, rfl⟩
    · cases hn.symm.trans hs
  · have hpc := pc_le_of_fetchWord hw
    obtain rfl := Option.some.inj (hw.symm.trans (fetchWord_of_le hpc))
    rcases executeWord_next_cases hu with ⟨k, a, hk, rfl⟩ | ⟨hfault, _⟩
    · exact .inr ⟨hpc, k, a, hk, endStep_enterFault _ s k a⟩
    · rw [endStep_fault, hfault] at ht
      exact absurd hf ht

/-- R112, last sentence. -/
theorem exec_of_not_mayFault {i : Instr} (hi : mayFault i = false) (s : State) :
    ∃ t, exec i s = .next t ∧ t.fault = s.fault := by
  cases i
  case ret | call | skp | sknp | drw | ldB | ldMemVx | ldVxMem => all_goals cases hi
  case seImm | sneImm | seReg | sneReg => all_goals exact ⟨_, rfl, s.skipIf_fault _⟩
  case ldVxK x =>
    rcases execLdVxK_cases x s with ⟨_, _, h⟩ | ⟨_, h⟩
    · exact ⟨_, h, rfl⟩
    · exact ⟨_, h, rfl⟩
  all_goals exact ⟨_, rfl, rfl⟩

/-! ### What a step leaves to the host (R29, R33, R8) -/

theorem executeWord_host_inputs {w : Word} {s t : State} (h : executeWord w s = .next t)
    (hs : s.started = true) :
    t.keys = s.keys ∧ t.loaded = s.loaded ∧ t.params = s.params ∧ t.started = true := by
  rcases executeWord_next_cases h with ⟨k, a, _, rfl⟩ | ⟨_, hstarted, hkeys, _, hloaded, hparams⟩
  · exact ⟨rfl, rfl, rfl, rfl⟩
  · exact ⟨hkeys, hloaded, hparams, hstarted.trans hs⟩

theorem step_host_inputs {s t : State} (h : step s = .next t) :
    t.keys = s.keys ∧ t.loaded = s.loaded ∧ t.params = s.params ∧ t.started = true := by
  obtain ⟨_, ⟨_, rfl⟩ | ⟨w, u, _, _, hu, rfl⟩⟩ := step_next_cases h
  · exact ⟨rfl, rfl, rfl, rfl⟩
  · rw [endStep_keys, endStep_loaded, endStep_params, endStep_started]
    exact executeWord_host_inputs hu (s := beginExecute w s) rfl

/-! ### One step of a decoded word (R57) -/

theorem executeWord_of_decode_ok {w : Word} {i : Instr} (h : decode w = .ok i) (s : State) :
    executeWord w s = exec i s := by
  simp [executeWord, h]

/-- The end of a step (R65, R113), with the decrement as a number. -/
theorem endStep_eq (s0 t : State) :
    endStep s0 t = if t.fault.isNone then
        { t with dt := BitVec.ofNat 8 (t.dt.toNat - 1), st := BitVec.ofNat 8 (t.st.toNat - 1) }
      else { t with currentOpcode := s0.currentOpcode } := by
  by_cases hf : t.fault = none
  case pos =>
    rw [endStep_of_running s0 hf, if_pos (Option.isNone_iff_eq_none.2 hf), timerStage, tickTimer_eq_ofNat,
      tickTimer_eq_ofNat]
  case neg =>
    rw [endStep_of_fault s0 (Option.isSome_iff_ne_none.2 hf), if_neg (mt Option.isNone_iff_eq_none.1 hf)]

theorem step_of_faulted {s : State} (h : s.fault ≠ none) : step s = .refused .machineFaulted := by
  simp [step, Option.isSome_iff_ne_none.2 h]

theorem step_of_fetchWord_none {s : State} (hf : s.fault = none) (hw : fetchWord s = none) :
    step s = .next (fetchFault s) := by
  simp [step, hf, hw]

/-! ### Construction (R35, R126) -/

theorem unlistedByte_outside (font : Font) {a : Nat} (h : a < 0x050 ∨ 0x0A0 ≤ a) : unlistedByte font a = 0 :=
  dif_neg (by omega)

theorem unlistedByte_font (font : Font) (k : Fin 80) : unlistedByte font (0x050 + k) = fontByte font k := by
  have hk := k.isLt
  rw [unlistedByte, dif_pos (by omega)]
  congr 1
  apply Fin.ext
  simp

theorem State.readByte_construct (s : State) (a : Nat) :
    (construct s).readByte a = unlistedByte s.params.font a := rfl

theorem State.constructed_wellFormed (p : Params) : (State.constructed p).WellFormed :=
  ⟨(by decide : (0 : Byte).toNat ≤ 16), rfl, State.constructed_mem_wf p⟩

theorem State.constructed_pcBounded (p : Params) : (State.constructed p).PcBounded :=
  ⟨(by decide : (0x200 : Word).toNat ≤ 0x10FE), fun k => by simp [State.constructed]⟩

theorem State.reset_eq_construct : State.reset = construct State.reset := rfl

/-! ### load (R128) -/

theorem load_of_late {bytes : List Byte} {s : State} (h : s.fault ≠ none ∨ s.started = true ∨ s.loaded = true) :
    load bytes s = .refused .lateLoad := by
  have hlate : (s.fault.isSome || s.started || s.loaded) = true := by
    simpa [Option.isSome_iff_ne_none, or_assoc] using h
  rw [load, if_pos hlate]

theorem imageWellFormed_iff (bytes : List Byte) : imageWellFormed bytes = true ↔ bytes.length ≤ 3584 :=
  decide_eq_true_iff

/-- A load that is not late tests the length of the image. -/
theorem load_of_early {bytes : List Byte} {s : State} (hf : s.fault = none) (hs : s.started = false)
    (hl : s.loaded = false) :
    load bytes s = if imageWellFormed bytes then
        .next ({ s.storeBytes 0x200 bytes with loaded := true }, .ok)
      else .next (s, .loadCapacity) := by
  have hearly : ¬(s.fault.isSome || s.started || s.loaded) = true := by simp [hf, hs, hl]
  rw [load, if_neg hearly, loadBase]

/-! ### Placing a word (log entry 8) -/

theorem withFetchWord_eq (s : State) (w : Word) :
    s.withFetchWord 16 w.toNat = s.storeBytes s.pc.toNat [highByte w, lowByte w] := by
  have hw : BitVec.ofNat 16 (w.toNat % 2 ^ 16) = w := by
    rw [Nat.mod_eq_of_lt w.isLt, BitVec.ofNat_toNat, BitVec.setWidth_eq]
  rw [State.withFetchWord, placeWord, tableBytes, hw]

end Sys2Proof.Machine

namespace Sys2Proof.Proofs

open Sys2Proof.Machine

/-- Settles O17: a step faults at fetch or in the execute stage of the word at pc, and either way the state is
the one before it but for `started` and the record. -/
theorem faultsArePrecise : Obligations.FaultsArePrecise := by
  intro s t r h hr
  rcases step_fault_cases h (by simp [hr]) with ⟨hpc, rfl⟩ | ⟨hpc, k, a, hk, rfl⟩ <;> cases hr
  · exact ⟨rfl, rfl, .inl ⟨hpc, rfl, rfl⟩⟩
  · exact ⟨rfl, rfl, .inr ⟨hpc, hk, rfl⟩⟩

/-- Settles O18: the execute stage of every other instruction is a write of elements, of which `fault` is
none. -/
theorem otherInstructionsNeverFault : Obligations.OtherInstructionsNeverFault :=
  fun _ s hi => exec_of_not_mayFault hi s

/-- Settles O19: a fault writes none of these elements, and a completed execute stage those that its rule
names. -/
theorem onlyNamedInstructionsWrite : Obligations.OnlyNamedInstructionsWrite := fun _ _ _ h =>
  ⟨fun _ => exec_getV_of_not_mayWriteV h, fun hi => sameMemory_of_eq (exec_mem_of_ne h hi) (exec_params h),
    exec_i_of_ne h, exec_stack_of_ne h, exec_sp_of_ne h, exec_dt_of_ne h, exec_st_of_ne h,
    exec_display_of_ne h, exec_rng_of_ne h, exec_keys h, exec_currentOpcode h, exec_loaded h, exec_params h⟩

/-- Settles O20: every stage of a step leaves these elements alone but for `started`, which the fetch fault and
the stage before the execute stage set. -/
theorem stepKeepsHostInputs : Obligations.StepKeepsHostInputs :=
  fun _ _ => step_host_inputs

/-- Settles O3: the stages of a step one after another. -/
theorem stepRunsDecodedInstruction : Obligations.StepRunsDecodedInstruction := by
  intro s s1 w i hf hpc hw hr hd hs1
  have hs1 : s1 = beginExecute w s := hs1
  have hr : refusesWord s.params w = false := by simpa [refusesWord] using hr
  subst hs1
  simp only [step, hf, fetchWord_of_le hpc, ← hw, hr, executeWord_of_decode_ok hd, endStep_eq]
  cases exec i (beginExecute w s) with
  | next t => simp only [Option.isSome_none, Bool.false_eq_true, if_false]; split <;> rfl
  | fault f => rfl
  | refused r => rfl

/-- Settles O5: no word is fetched there, and the step ends with the fetch's fault. -/
theorem fetchPastMemoryFaults : Obligations.FetchPastMemoryFaults := by
  intro s hf hpc
  rcases fetchWord_cases s with ⟨_, hw⟩ | ⟨hle, _⟩
  · exact step_of_fetchWord_none hf hw
  · omega

/-- Settles O6: step and load test `fault` first; a constructed machine has none. -/
theorem faultedMachineHasNoStep : Obligations.FaultedMachineHasNoStep :=
  fun _ h => ⟨step_of_faulted h, fun _ => load_of_late (.inl h), rfl⟩

/-- Settles O21: both stack operations test SP's upper end. -/
theorem illFormedStackPointerStops : Obligations.IllFormedStackPointerStops := by
  refine fun s nnn h => ⟨?call, ?ret⟩
  case call =>
    rcases pushAndJump_cases (addrOperand nnn) s with ⟨h16, _⟩ | ⟨hlt, _⟩ | ⟨_, e⟩
    · omega
    · omega
    · exact e
  case ret =>
    rcases popAndJump_cases s with ⟨h0, _⟩ | ⟨⟨_, hle⟩, _⟩ | ⟨_, e⟩
    · omega
    · omega
    · exact e

/-- Settles O13: the constructed state lists no memory and has SP 0, no fault, pc 0x200 and a zero stack. -/
theorem resetMeetsInvariants : Obligations.ResetMeetsInvariants :=
  ⟨State.constructed_wellFormed _, State.constructed_pcBounded _,
    fun s => ⟨State.constructed_wellFormed s.params, State.constructed_pcBounded s.params⟩⟩

/-- Settles O1: reset is a construction too, and construction gives each element its value; memory lists
nothing, so every byte reads as its content after construction. -/
theorem resetValues : Obligations.ResetValues := by
  intro c hc
  obtain ⟨s, rfl⟩ : ∃ s, c = construct s := by
    rcases hc with rfl | hc
    · exact ⟨_, State.reset_eq_construct⟩
    · exact hc
  refine ⟨?registers, rfl, rfl, ?stack, rfl, rfl, rfl, ?pixels, ?keys, ?low, ?font, ?high, rfl, rfl, rfl, rfl⟩
  case registers => simp [construct, State.constructed, State.getV]
  case stack => simp [construct, State.constructed]
  case pixels => exact fun u _ => pixelOn_blankDisplay u
  case keys => simp [construct, State.constructed]
  case low => exact fun a ha => (s.readByte_construct a).trans (unlistedByte_outside _ (.inl ha))
  case font => exact fun k => (s.readByte_construct _).trans (unlistedByte_font _ k)
  case high => exact fun a ha _ => (s.readByte_construct a).trans (unlistedByte_outside _ (.inr ha))

/-- Settles O2: an image of at most 3584 bytes ends at 0x1000 at most, so each of its bytes is stored. -/
theorem loadCopiesOrRejects : Obligations.LoadCopiesOrRejects := by
  refine fun bytes s => ⟨load_of_late, fun hf hs hl hlong => ?tooLong, fun hf hs hl hfit => ?copied⟩
  case tooLong => rw [load_of_early hf hs hl, if_neg (by rw [imageWellFormed_iff]; omega)]
  case copied =>
    refine ⟨_, by rw [load_of_early hf hs hl, if_pos ((imageWellFormed_iff bytes).2 hfit)], rfl,
      fun k hk => ?inside, fun b hb => ?outside, ?frame⟩
    case inside => exact s.readByte_storeBytes_inside 0x200 bytes k hk (by omega)
    case outside => exact s.readByte_storeBytes_outside 0x200 bytes hb
    case frame => rw [State.storeBytes_eq]

/-- Settles O8: the word is stored as its two bytes, high byte at pc, and read back from them. -/
theorem placedWordIsFetched : Obligations.PlacedWordIsFetched := by
  intro s w hpc
  rw [withFetchWord_eq]
  set t := s.storeBytes s.pc.toNat [highByte w, lowByte w] with ht
  have hread (k : Nat) (hk : k < 2) : t.readByte (s.pc.toNat + k) = [highByte w, lowByte w][k] :=
    s.readByte_storeBytes_inside _ [highByte w, lowByte w] k hk
      (by simp only [List.length_cons, List.length_nil]; omega)
  have htpc : t.pc = s.pc := by rw [ht, State.storeBytes_eq]
  refine ⟨?fetch, fun b hb => s.readByte_storeBytes_outside _ _ hb, State.storeBytes_eq _ _ _⟩
  case fetch =>
    rw [fetchWord_of_le (htpc ▸ hpc), htpc, hread 1 (by decide), ← Nat.add_zero s.pc.toNat,
      hread 0 (by decide)]
    exact congrArg some (wordOfBytes_bytes w)

end Sys2Proof.Proofs
end

section
/-! 2nnn, 00EE, Bnnn, Ex9E and ExA1 (42_control_flow.md R74, R76, R77; 43_skips.md R83 to R85): O28 to O31, O33. -/

namespace Sys2Proof.Machine

/-! ### The stack operations, by the value of SP -/

theorem exec_call_of_lt (nnn : Addr12) {s : State} (h : s.sp.toNat < 16) :
    exec (.call nnn) s =
      .next (s.setFrame (s.stack.set s.sp.toNat s.pc h) (s.sp + 1) (addrOperand nnn)) := by
  rcases pushAndJump_cases (addrOperand nnn) s with ⟨hfull, _⟩ | ⟨_, e⟩ | ⟨hout, _⟩
  · omega
  · exact e
  · omega

theorem exec_call_of_full (nnn : Addr12) {s : State} (h : s.sp.toNat = 16) :
    exec (.call nnn) s = raise .stackOverflow 16 s := by
  rcases pushAndJump_cases (addrOperand nnn) s with ⟨_, e⟩ | ⟨hlt, _⟩ | ⟨hout, _⟩
  · exact e
  · omega
  · omega

theorem exec_ret_of_pos {s : State} (h0 : 0 < s.sp.toNat) (h16 : s.sp.toNat ≤ 16) :
    exec .ret s = .next (s.setFrame s.stack (s.sp - 1) (s.stack[s.sp.toNat - 1]'(by omega))) := by
  rcases popAndJump_cases s with ⟨hempty, _⟩ | ⟨_, e⟩ | ⟨hout, _⟩
  · omega
  · exact e
  · omega

theorem exec_ret_of_empty {s : State} (h : s.sp.toNat = 0) : exec .ret s = raise .stackUnderflow 0 s := by
  rcases popAndJump_cases s with ⟨_, e⟩ | ⟨⟨hpos, _⟩, _⟩ | ⟨hout, _⟩
  · exact e
  · omega
  · omega

theorem exec_jpV0 (nnn : Addr12) (s : State) :
    exec (.jpV0 nnn) s = .next (s.setPc (addrOperand nnn + byteOperand (s.getV 0))) := rfl

/-! ### The key skips, by the value of V[x] -/

theorem skipOnKey_of_lt {x : Nibble} (pressed : Bool) {s : State} (h : (s.getV x).toNat < 16) :
    skipOnKey x pressed s = .next (s.skipIf (s.keys[(s.getV x).toNat] == pressed)) := by
  rcases skipOnKey_cases x pressed s with ⟨hout, _⟩ | ⟨_, e⟩
  · omega
  · exact e

/-- R83: the number of no key. -/
theorem skipOnKey_takesFault {x : Nibble} (pressed : Bool) {s : State} (h : 0xF < (s.getV x).toNat) :
    TakesFault (skipOnKey x pressed s) s .keyIndex (s.getV x).toNat := by
  rcases skipOnKey_cases x pressed s with ⟨_, e⟩ | ⟨hlt, _⟩
  · rw [e]; exact raise_takesFault _ _ s
  · omega

end Sys2Proof.Machine

namespace Sys2Proof.Proofs

open Sys2Proof.Machine

/-- Settles O28: the sum of twelve and eight bits fits in a word, and the execute stage is one write of pc. -/
theorem jumpV0SetsPc : Obligations.JumpV0SetsPc := by
  refine ⟨fun _ => decode_of_category11, fun s nnn => ?_⟩
  refine ⟨_, exec_jpV0 nnn s, ?target, s.setPc_onlyPcChanges _⟩
  case target => rw [State.setPc_pc, jumpV0_toNat]

/-- Settles O29: below 16 the execute stage writes stack[SP], SP and pc; at 16 it raises the fault. -/
theorem callPushesAndJumps : Obligations.CallPushesAndJumps := by
  refine ⟨fun _ => decode_of_category2, fun s nnn => ⟨fun h => ?pushed, fun h => ?overflow⟩⟩
  case pushed =>
    refine ⟨_, exec_call_of_lt nnn h, ?entry, fun k hk => ?others, ?sp, ?pc, ?memory, rfl⟩
    case entry => simp
    case others => simp [Ne.symm hk]
    case sp =>
      rw [State.setFrame_sp]
      bv_omega
    case pc => rw [State.setFrame_pc, addrOperand_toNat]
    case memory => exact sameMemory_of_eq (s.setFrame_mem _ _ _) (s.setFrame_params _ _ _)
  case overflow => rw [exec_call_of_full nnn h]; exact raise_takesFault _ _ s

/-- Settles O30: from 1 to 16 the execute stage writes SP and pc and leaves the stack; at 0 it raises the
fault. -/
theorem retPopsPc : Obligations.RetPopsPc := by
  refine ⟨fun w hc hn => (decode_of_category0 hc).trans (decode0_eq_ret hn),
    fun s => ⟨fun h0 h16 => ?popped, fun h => ?underflow⟩⟩
  case popped =>
    refine ⟨_, exec_ret_of_pos h0 h16, ?sp, s.setFrame_pc _ _ _, ?memory, rfl⟩
    case sp =>
      rw [State.setFrame_sp]
      bv_omega
    case memory => exact sameMemory_of_eq (s.setFrame_mem _ _ _) (s.setFrame_params _ _ _)
  case underflow => rw [exec_ret_of_empty h]; exact raise_takesFault _ _ s

/-- Settles O31: 00EE reads the entry below the SP that 2nnn left, which is the one that 2nnn wrote. -/
theorem returnUndoesCall : Obligations.ReturnUndoesCall := by
  intro s nnn h
  obtain ⟨t, ht, hentry, _, htsp, _⟩ := (callPushesAndJumps.2 s nnn).1 h
  obtain ⟨u, hu, husp, hupc, _⟩ := (retPopsPc.2 t).1 (by omega) (by omega)
  have hback : t.sp.toNat - 1 = s.sp.toNat := by omega
  refine ⟨t, u, ht, hu, ?pc, ?sp⟩
  case pc =>
    simp only [hback] at hupc
    exact hupc.trans hentry
  case sp => exact BitVec.eq_of_toNat_eq (husp.trans hback)

/-- Settles O33: both are one skip on the state of the key, and raise the fault where there is no key. -/
theorem keySkips : Obligations.KeySkips := by
  refine ⟨fun w hc => ?decoding, fun s x => ⟨fun h => ⟨?skp, ?sknp⟩, fun h => ?noKey⟩⟩
  case decoding =>
    rw [decode_of_category14 hc]
    exact ⟨decodeE_eq_skp, decodeE_eq_sknp⟩
  case skp =>
    refine ⟨_, skipOnKey_of_lt true h, s.skipIf_onlyPcChanges _, fun hk => ?_, fun hk => ?_⟩ <;> simp [hk]
  case sknp =>
    refine ⟨_, skipOnKey_of_lt false h, s.skipIf_onlyPcChanges _, fun hk => ?_, fun hk => ?_⟩ <;> simp [hk]
  case noKey => exact ⟨skipOnKey_takesFault true h, skipOnKey_takesFault false h⟩

end Sys2Proof.Proofs
end

section
/-! VF as an operand, and Cxkk (44_alu.md R87, R99): O39, O40. -/

namespace Sys2Proof.Machine

theorem notBorrowFlag_toNat (minuend subtrahend : Byte) :
    (notBorrowFlag minuend subtrahend).toNat = if subtrahend.toNat < minuend.toNat then 1 else 0 := by
  rw [notBorrowFlag_eq]
  split <;> rfl

/-- Where both operands are the register written, the difference is 0, be it VF or not. -/
theorem State.getV_subAfterFlag_self (s : State) (f : Byte) (x a : Nibble) :
    (s.subAfterFlag f x a a).getV x = 0 := by
  rw [State.subAfterFlag, State.getV_setV_same, BitVec.sub_self]
  rfl

/-- R87: the minuend is VF, so the flag. -/
theorem State.subAfterFlag_flag_minuend (s : State) (f : Byte) (x : Nibble) {b : Nibble} (hb : b ≠ 0xF) :
    ((s.subAfterFlag f x 0xF b).getV x).toNat = (256 + f.toNat - (s.getV b).toNat) % 256 := by
  rw [(s.subAfterFlag_effect f x 0xF b).1, if_pos rfl, if_neg hb]

/-- R87: the subtrahend is VF, so the flag. -/
theorem State.subAfterFlag_flag_subtrahend (s : State) (f : Byte) (x : Nibble) {a : Nibble} (ha : a ≠ 0xF) :
    ((s.subAfterFlag f x a 0xF).getV x).toNat = (256 + (s.getV a).toNat - f.toNat) % 256 := by
  rw [(s.subAfterFlag_effect f x a 0xF).1, if_neg ha, if_pos rfl]

theorem exec_rnd (x : Nibble) (kk : Byte) (s : State) :
    exec (.rnd x kk) s = .next (s.draw.2.setV x (Config.draw s.rng &&& kk)) := rfl

end Sys2Proof.Machine

namespace Sys2Proof.Proofs

open Sys2Proof.Machine

/-- Settles O39: 8xy4 computes from the registers before it; 8xy5 and 8xy7 read VF after the flag is in it. -/
theorem flagRegisterAsOperand : Obligations.FlagRegisterAsOperand := by
  rintro s r _ _ hr rfl rfl
  refine ⟨?addFr, ?addrF, ?addFF, ?subFr, ?subrF, ?subFF, ?subnFr, ?subnrF, ?subnFF⟩
  case addFr =>
    obtain ⟨t, ht, hsum, _⟩ := addSetsCarry.2 s 0xF r
    exact ⟨t, ht, hsum⟩
  case addrF =>
    obtain ⟨t, ht, hsum, hcarry, _⟩ := addSetsCarry.2 s r 0xF
    refine ⟨t, ht, hsum, ?_⟩
    rw [hcarry hr]
    split <;> rfl
  case addFF =>
    obtain ⟨t, ht, hsum, _⟩ := addSetsCarry.2 s 0xF 0xF
    exact ⟨t, ht, hsum.trans (by rw [Nat.two_mul])⟩
  case subFr =>
    refine ⟨_, exec_sub 0xF r s, ?_⟩
    rw [State.subAfterFlag_flag_minuend s _ _ hr, notBorrowFlag_toNat]
  case subrF =>
    refine ⟨_, exec_sub r 0xF s, ?flag, ?difference⟩
    case flag => rw [(s.subAfterFlag_effect _ r r 0xF).2.1 hr, notBorrowFlag_toNat]
    case difference => rw [State.subAfterFlag_flag_subtrahend s _ _ hr, notBorrowFlag_toNat]
  case subFF => exact ⟨_, exec_sub 0xF 0xF s, s.getV_subAfterFlag_self _ _ _⟩
  case subnFr =>
    refine ⟨_, exec_subn 0xF r s, ?_⟩
    rw [State.subAfterFlag_flag_subtrahend s _ _ hr, notBorrowFlag_toNat]
  case subnrF =>
    refine ⟨_, exec_subn r 0xF s, ?flag, ?difference⟩
    case flag => rw [(s.subAfterFlag_effect _ r 0xF r).2.1 hr, notBorrowFlag_toNat]
    case difference => rw [State.subAfterFlag_flag_minuend s _ _ hr, notBorrowFlag_toNat]
  case subnFF => exact ⟨_, exec_subn 0xF 0xF s, s.getV_subAfterFlag_self _ _ _⟩

/-- Settles O40: one write of V[x] in the state with one more draw taken; the byte is `Config.draw` of the
counter, of which nothing is used. -/
theorem randomByteIsMasked : Obligations.RandomByteIsMasked := by
  refine ⟨fun _ => decode_of_category12, fun s x kk => ?_⟩
  refine ⟨_, exec_rnd x kk s, State.getV_setV_same _ x _, fun k hk => ?masked,
    fun r hr => State.getV_setV_other _ _ hr, rfl, sameMemory_of_eq rfl rfl, rfl⟩
  case masked => rw [State.getV_setV_same, BitVec.getLsbD_and, hk, Bool.and_false]

end Sys2Proof.Proofs
end

section
/-! Fx33, Fx55 and Fx65 (45_index_memory.md R100, R104 to R106): O42 to O45. -/

namespace Sys2Proof.Machine

/-- A store through I that fits in memory (R100). -/
theorem storeThroughIndex_of_fits {bs : List Byte} {s : State} (h : s.i.toNat + bs.length ≤ 0x1000) :
    ∃ t, storeThroughIndex bs s = .next t ∧
      (∀ k, ∀ hk : k < bs.length, t.readByte (s.i.toNat + k) = bs[k]) ∧
      SameMemoryOutside s.i.toNat bs.length s t ∧ t = { s with mem := t.mem } := by
  rcases storeThroughIndex_cases bs s with ⟨_, hpast, _⟩ | ⟨_, e⟩
  · omega
  · exact ⟨_, e, fun k hk => s.readByte_storeBytes_inside _ bs k hk h,
      fun b hb => s.readByte_storeBytes_outside _ bs hb, s.storeBytes_eq _ bs⟩

theorem storeThroughIndex_takesFault {bs : List Byte} {s : State} (h0 : 0 < bs.length)
    (h : 0x1000 < s.i.toNat + bs.length) :
    TakesFault (storeThroughIndex bs s) s .memBounds (max s.i.toNat 0x1000) := by
  rcases storeThroughIndex_cases bs s with ⟨_, _, e⟩ | ⟨hfits, _⟩
  · rw [e]; exact raise_takesFault _ _ s
  · omega

@[simp] theorem decimalDigits_length (b : Byte) : (decimalDigits b).length = 3 := rfl

/-- The digits of a byte are less than 256, so none is cut. -/
theorem decimalDigits_toNat (b : Byte) :
    (decimalDigits b)[0].toNat = b.toNat / 100 ∧
      (decimalDigits b)[1].toNat = b.toNat / 10 % 10 ∧
      (decimalDigits b)[2].toNat = b.toNat % 10 := by
  have hb : b.toNat < 256 := b.isLt
  simp only [decimalDigits, List.getElem_cons_zero, List.getElem_cons_succ, BitVec.toNat_ofNat]
  omega

/-- Fx65 within memory (R106). -/
theorem exec_ldVxMem_of_fits {x : Nibble} {s : State} (h : s.i.toNat + x.toNat ≤ 0xFFF) :
    exec (.ldVxMem x) s = .next (s.setVs 0 (s.loadBytes s.i.toNat (registerCount x))) := by
  rcases execLdVxMem_cases x s with ⟨hpast, _⟩ | ⟨_, e⟩
  · simp only [registerCount] at hpast
    omega
  · exact e

theorem exec_ldVxMem_takesFault {x : Nibble} {s : State} (h : 0xFFF < s.i.toNat + x.toNat) :
    TakesFault (exec (.ldVxMem x) s) s .memBounds (max s.i.toNat 0x1000) := by
  rcases execLdVxMem_cases x s with ⟨_, e⟩ | ⟨hfits, _⟩
  · exact e.trans (raise_takesFault _ _ s)
  · simp only [registerCount] at hfits
    omega

/-- What a register holds after V[0]..V[x] were loaded from the addresses from `a` on. -/
theorem State.getV_setVs_loadBytes (s : State) (a : Nat) (x r : Nibble) :
    (s.setVs 0 (s.loadBytes a (registerCount x))).getV r =
      if r.toNat ≤ x.toNat then s.readByte (a + r.toNat) else s.getV r := by
  have hx := x.isLt
  have hlen := s.loadBytes_length a (registerCount x)
  rw [State.getV_setVs _ _ _ _ (by rw [hlen, registerCount]; omega)]
  by_cases hr : r.toNat ≤ x.toNat
  · rw [if_pos hr, dif_pos (by rw [hlen, registerCount]; omega), State.loadBytes_getElem, Nat.sub_zero]
  · rw [if_neg hr, dif_neg (by rw [hlen, registerCount]; omega)]

theorem State.setVs_onlyRegistersChange (s : State) (r : Nat) (bs : List Byte) :
    OnlyRegistersChange s (s.setVs r bs) := by
  have heq := s.setVs_eq r bs
  exact ⟨sameMemory_of_eq (by rw [heq]) (by rw [heq]), heq⟩

end Sys2Proof.Machine

namespace Sys2Proof.Proofs

open Sys2Proof.Machine

/-- Settles O42: Fx33 is a store of three bytes through I. -/
theorem decimalStore : Obligations.DecimalStore := by
  refine ⟨fun w hc hk => (decode_of_category15 hc).trans (decodeF_eq_ldB hk),
    fun s x => ⟨fun hfit => ?stored, fun hpast => ?fault⟩⟩
  case stored =>
    obtain ⟨t, ht, hbytes, hframe⟩ := storeThroughIndex_of_fits (bs := decimalDigits (s.getV x)) (s := s)
      (by rw [decimalDigits_length]; omega)
    obtain ⟨hundreds, tens, ones⟩ := decimalDigits_toNat (s.getV x)
    refine ⟨t, ht, ?_, ?_, ?_, hframe⟩
    · exact (congrArg BitVec.toNat (hbytes 0 (by simp))).trans hundreds
    · exact (congrArg BitVec.toNat (hbytes 1 (by simp))).trans tens
    · exact (congrArg BitVec.toNat (hbytes 2 (by simp))).trans ones
  case fault => exact storeThroughIndex_takesFault (by simp) (by rw [decimalDigits_length]; omega)

/-- Settles O43: Fx55 is a store of V[0]..V[x] through I. -/
theorem registerStore : Obligations.RegisterStore := by
  refine ⟨fun w hc hk => (decode_of_category15 hc).trans (decodeF_eq_ldMemVx hk),
    fun s x => ?_⟩
  have hlen : (s.registersUpTo x).length = x.toNat + 1 := s.registersUpTo_length x
  refine ⟨fun hfit => ?stored, fun hpast => ?fault⟩
  case stored =>
    obtain ⟨t, ht, hbytes, hframe⟩ := storeThroughIndex_of_fits (bs := s.registersUpTo x) (s := s) (by omega)
    rw [hlen] at hframe
    refine ⟨t, ht, fun r hr => ?byte, hframe⟩
    case byte =>
      rw [hbytes r.toNat (by omega), State.registersUpTo_getElem, BitVec.ofNat_toNat, BitVec.setWidth_eq]
  case fault => exact storeThroughIndex_takesFault (by omega) (by omega)

/-- Settles O44: Fx65 is a load of V[0]..V[x] through I. -/
theorem registerLoad : Obligations.RegisterLoad := by
  refine ⟨fun w hc hk => (decode_of_category15 hc).trans (decodeF_eq_ldVxMem hk),
    fun s x => ⟨fun hfit => ?loaded, exec_ldVxMem_takesFault⟩⟩
  case loaded =>
    refine ⟨_, exec_ldVxMem_of_fits hfit, fun r hr => ?upToX, fun r hr => ?above,
      s.setVs_onlyRegistersChange 0 _⟩
    case upToX => rw [State.getV_setVs_loadBytes, if_pos hr]
    case above => rw [State.getV_setVs_loadBytes, if_neg (by omega)]

/-- Settles O45: neither transfer writes I, and the registers written between are no part of memory, so Fx65
loads the bytes that Fx55 stored. -/
theorem storeThenLoadRestoresRegisters : Obligations.StoreThenLoadRestoresRegisters := by
  intro s x v hfit
  obtain ⟨t, ht, hstored, _, hframe⟩ := (registerStore.2 s x).1 hfit
  have hti : t.i = s.i := by rw [hframe]
  obtain ⟨u, hu, hloaded, _, _, huframe⟩ := (registerLoad.2 { t with v := v } x).1 (by rw [hti]; exact hfit)
  refine ⟨t, u, ht, hu, fun r hr => ?restored, ?index⟩
  case restored =>
    calc u.getV r = t.readByte (t.i.toNat + r.toNat) := hloaded r hr
      _ = t.readByte (s.i.toNat + r.toNat) := by rw [hti]
      _ = s.getV r := hstored r hr
  case index =>
    rw [huframe]
    exact hti

end Sys2Proof.Proofs
end

section
/-! The sprite drawer (41_display.md R69 to R72): O23 to O26. A sprite is the list of its set bits in R72's order,
and every fact about a draw is one about the targets of that list. -/

namespace Sys2Proof.Machine

/-! ### Targets (R71) -/

theorem spriteTarget_pixel_lt {edge : SpriteEdge} {xpos ypos i j t : Nat}
    (h : spriteTarget edge xpos ypos i j = .pixel t) : t < 2048 := by
  cases edge <;> simp only [spriteTarget] at h
  case rawLinearFault | clip =>
    all_goals
      split at h
      · cases h
      · injection h
        omega
  case wrap =>
    injection h
    omega

/-- A sprite is at most 15 rows high and 8 columns wide, so neither the linear index nor the wrap brings two of
its bits to one pixel. -/
theorem spriteTarget_pixel_inj {edge : SpriteEdge} {xpos ypos i j i' j' t : Nat} (hi : i < 15) (hj : j < 8)
    (hi' : i' < 15) (hj' : j' < 8) (h : spriteTarget edge xpos ypos i j = .pixel t)
    (h' : spriteTarget edge xpos ypos i' j' = .pixel t) : i' = i ∧ j' = j := by
  cases edge <;> simp only [spriteTarget] at h h'
  case rawLinearFault | clip =>
    all_goals
      split at h
      · cases h
      · split at h'
        · cases h'
        · injection h.trans h'.symm
          omega
  case wrap =>
    injection h.trans h'.symm
    omega

theorem spriteTarget_raw_of_past {xpos ypos i j : Nat} (h : 2047 < (ypos + i) * 64 + (xpos + j)) :
    spriteTarget .rawLinearFault xpos ypos i j = .out ((ypos + i) * 64 + (xpos + j)) := if_pos h

theorem spriteTarget_raw_of_inside {xpos ypos i j : Nat} (h : (ypos + i) * 64 + (xpos + j) ≤ 2047) :
    spriteTarget .rawLinearFault xpos ypos i j = .pixel ((ypos + i) * 64 + (xpos + j)) :=
  if_neg (Nat.not_lt.2 h)

theorem spriteTarget_clip_of_past {xpos ypos i j : Nat} (h : 63 < xpos + j ∨ 31 < ypos + i) :
    spriteTarget .clip xpos ypos i j = .nowhere := if_pos h

theorem spriteTarget_clip_of_inside {xpos ypos i j : Nat} (hx : xpos + j ≤ 63) (hy : ypos + i ≤ 31) :
    spriteTarget .clip xpos ypos i j = .pixel ((ypos + i) * 64 + (xpos + j)) := if_neg (by omega)

/-! ### The set bits of a sprite, in order (R69, R70, R72) -/

/-- Rows before columns. -/
def bitBefore (p q : Nat × Nat) : Prop := p.1 < q.1 ∨ (p.1 = q.1 ∧ p.2 < q.2)

/-- The set bits (i, j) of the sprite of `n` rows at I. -/
def State.setBits (s : State) (n : Nibble) : List (Nat × Nat) :=
  spriteBits 0 (s.loadBytes s.indexBase n.toNat)

theorem drawTargets_eq_map (x y n : Nibble) (s : State) :
    drawTargets x y n s = (s.setBits n).map fun p => spriteLanding s x y p.1 p.2 := rfl

theorem State.mem_setBits (s : State) (n : Nibble) (p : Nat × Nat) :
    p ∈ s.setBits n ↔ p.1 < n.toNat ∧ p.2 < 8 ∧ SpriteBitSet s p.1 p.2 := by
  simp only [State.setBits, mem_spriteBits, State.loadBytes_getElem, State.loadBytes_length, spriteBit,
    SpriteBitSet, State.indexBase, Nat.zero_add]
  constructor
  · rintro ⟨k, hk, rfl, hbit⟩
    exact ⟨hk, hbit⟩
  · rintro ⟨hk, hbit⟩
    exact ⟨p.1, hk, rfl, hbit⟩

theorem spriteBits_pairwise (i0 : Nat) (rows : List Byte) : (spriteBits i0 rows).Pairwise bitBefore := by
  induction rows generalizing i0 with
  | nil => exact List.Pairwise.nil
  | cons row rows ih =>
    refine List.pairwise_append.2 ⟨?sameRow, ih (i0 + 1), fun p hp q hq => ?laterRow⟩
    case sameRow =>
      exact List.pairwise_map.2 ((List.pairwise_lt_range.filter _).imp fun hlt => .inr ⟨rfl, hlt⟩)
    case laterRow =>
      obtain ⟨j, _, rfl⟩ := List.mem_map.1 hp
      obtain ⟨k, _, hk, _⟩ := (mem_spriteBits _ _ _).1 hq
      exact .inl (by simp only [hk]; omega)

theorem mem_drawTargets (x y n : Nibble) (s : State) (target : SpriteTarget) :
    target ∈ drawTargets x y n s ↔
      ∃ i j, i < n.toNat ∧ j < 8 ∧ SpriteBitSet s i j ∧ spriteLanding s x y i j = target := by
  simp only [drawTargets_eq_map, List.mem_map, State.mem_setBits, Prod.exists, and_assoc]

/-- The pixels that Dxyn toggles. -/
theorem mem_pixelsOf_drawTargets (x y n : Nibble) (s : State) (u : Nat) :
    u ∈ pixelsOf (drawTargets x y n s) ↔ SpriteCovers s x y n u :=
  (mem_pixelsOf _ u).trans (mem_drawTargets x y n s _)

theorem spriteCovers_lt {s : State} {x y n : Nibble} {u : Nat} (h : SpriteCovers s x y n u) : u < 2048 := by
  obtain ⟨i, j, _, _, _, hland⟩ := h
  exact spriteTarget_pixel_lt hland

theorem pixelsOf_nodup {targets : List SpriteTarget}
    (h : targets.Pairwise fun a b => ∀ t, a = .pixel t → b ≠ .pixel t) : (pixelsOf targets).Nodup := by
  induction targets with
  | nil => exact List.nodup_nil
  | cons a targets ih =>
    obtain ⟨ha, htargets⟩ := List.pairwise_cons.1 h
    cases a with
    | pixel t =>
      exact List.nodup_cons.2 ⟨fun ht => ha _ ((mem_pixelsOf _ t).1 ht) t rfl rfl, ih htargets⟩
    | out t => exact ih htargets
    | nowhere => exact ih htargets

theorem pixelsOf_drawTargets_nodup (x y n : Nibble) (s : State) :
    (pixelsOf (drawTargets x y n s)).Nodup := by
  have hn : n.toNat < 16 := n.isLt
  refine pixelsOf_nodup (List.pairwise_map.2 ?_)
  refine (spriteBits_pairwise 0 _).imp_of_mem fun {p q} hp hq hpq t ht ht' => ?_
  obtain ⟨hpi, hpj, _⟩ := (s.mem_setBits n p).1 hp
  obtain ⟨hqi, hqj, _⟩ := (s.mem_setBits n q).1 hq
  obtain ⟨hi, hj⟩ := spriteTarget_pixel_inj (by omega) hpj (by omega) hqj ht ht'
  rcases hpq with hlt | ⟨_, hlt⟩ <;> omega

/-! ### The checks of Dxyn -/

/-- A target past the display is the first one when none stands before it. -/
theorem firstOut_append {before : List SpriteTarget} (h : ∀ t, .out t ∉ before) (t : Nat)
    (after : List SpriteTarget) : firstOut (before ++ .out t :: after) = some t := by
  induction before with
  | nil => rfl
  | cons a before ih =>
    have hbefore := ih fun t' ht' => h t' (List.mem_cons_of_mem a ht')
    cases a with
    | out t' => exact absurd List.mem_cons_self (h t')
    | pixel t' => exact hbefore
    | nowhere => exact hbefore

/-- The display check finds the target of the first set bit, rows before columns, that lands past the display. -/
theorem firstOut_drawTargets {s : State} {x y n : Nibble} {i j t : Nat} (hi : i < n.toNat) (hj : j < 8)
    (hbit : SpriteBitSet s i j) (hland : spriteLanding s x y i j = .out t)
    (hfirst : ∀ i' j' t', j' < 8 → (i' < i ∨ (i' = i ∧ j' < j)) → SpriteBitSet s i' j' →
      spriteLanding s x y i' j' ≠ .out t') : firstOut (drawTargets x y n s) = some t := by
  obtain ⟨before, after, hsplit⟩ := List.append_of_mem ((s.mem_setBits n (i, j)).2 ⟨hi, hj, hbit⟩)
  have hsorted : (s.setBits n).Pairwise bitBefore := spriteBits_pairwise 0 _
  rw [hsplit] at hsorted
  rw [drawTargets_eq_map, hsplit, List.map_append, List.map_cons, hland]
  refine firstOut_append (fun t' ht' => ?_) t _
  obtain ⟨p, hp, hpland⟩ := List.mem_map.1 ht'
  have hpset := (s.mem_setBits n p).1 (hsplit ▸ List.mem_append_left _ hp)
  have hpbefore : bitBefore p (i, j) := (List.pairwise_append.1 hsorted).2.2 p hp _ List.mem_cons_self
  exact hfirst p.1 p.2 t' hpset.2.1 hpbefore hpset.2.2 hpland

theorem exec_drw_memBounds {s : State} {n : Nibble} (x y : Nibble) (hn : 0 < n.toNat)
    (h : 0x1000 < s.i.toNat + n.toNat) :
    exec (.drw x y n) s = raise .memBounds (max s.i.toNat 0x1000) s := by
  rcases execDrw_cases x y n s with ⟨_, _, e⟩ | ⟨hfits, _⟩
  · exact e
  · omega

theorem exec_drw_displayBounds {s : State} {x y n : Nibble} {t : Nat} (h : s.i.toNat + n.toNat ≤ 0x1000)
    (ht : firstOut (drawTargets x y n s) = some t) :
    exec (.drw x y n) s = raise .displayBounds t s := by
  rcases execDrw_cases x y n s with ⟨_, hpast, _⟩ | ⟨_, ⟨t', ht', e⟩ | ⟨hnone, _⟩⟩
  · omega
  · cases ht'.symm.trans ht
    exact e
  · cases hnone.symm.trans ht

/-! ### The write phase -/

/-- The state after a draw that the checks allowed. -/
def State.drawn (s : State) (x y n : Nibble) : State :=
  (s.setDisplay (drawPixels s.display false (pixelsOf (drawTargets x y n s))).1).setVF
    (collisionFlag (drawPixels s.display false (pixelsOf (drawTargets x y n s))).2)

theorem exec_drw_of_allowed {s : State} {x y n : Nibble} (h : DrawAllowed s x y n) :
    exec (.drw x y n) s = .next (s.drawn x y n) := by
  obtain ⟨hmem, hdisplay⟩ := h
  rcases execDrw_cases x y n s with ⟨hn, hpast, _⟩ | ⟨_, ⟨t, ht, _⟩ | ⟨_, e⟩⟩
  · omega
  · have hnone : firstOut (drawTargets x y n s) = none := by
      refine (firstOut_none_iff _).2 fun t' ht' => ?_
      obtain ⟨i, j, hi, hj, hbit, hland⟩ := (mem_drawTargets x y n s _).1 ht'
      exact hdisplay i j t' hi hj hbit hland
    cases hnone.symm.trans ht
  · exact e

section
variable (s : State) (x y n : Nibble)

theorem State.drawn_pixelOn (u : Nat) :
    pixelOn (s.drawn x y n).display u =
      (pixelOn s.display u ^^ decide (u ∈ pixelsOf (drawTargets x y n s))) :=
  drawPixels_pixels _ _ _ (pixelsOf_drawTargets_nodup x y n s)
    (fun _ ht => spriteCovers_lt ((mem_pixelsOf_drawTargets x y n s _).1 ht)) u

theorem State.drawn_flag :
    (s.drawn x y n).getV 0xF = flagByte ((pixelsOf (drawTargets x y n s)).any (pixelOn s.display)) := by
  rw [State.drawn, State.getV_setVF, if_pos rfl, collisionFlag,
    drawPixels_collision _ _ _ (pixelsOf_drawTargets_nodup x y n s)
      (fun _ ht => spriteCovers_lt ((mem_pixelsOf_drawTargets x y n s _).1 ht)), Bool.false_or]

/-- What a draw leaves unchanged. -/
theorem State.drawn_frame :
    (∀ r, r ≠ 0xF → (s.drawn x y n).getV r = s.getV r) ∧ SameMemory s (s.drawn x y n) ∧
      s.drawn x y n = { s with v := (s.drawn x y n).v, display := (s.drawn x y n).display } := by
  refine ⟨fun r hr => ?_, sameMemory_of_eq rfl rfl, rfl⟩
  rw [State.drawn, State.getV_setVF, if_neg hr]
  rfl

variable {s x y n}

theorem State.drawn_pixelOn_of_covers {u : Nat} (h : SpriteCovers s x y n u) :
    pixelOn (s.drawn x y n).display u = !pixelOn s.display u := by
  rw [State.drawn_pixelOn, decide_eq_true ((mem_pixelsOf_drawTargets x y n s u).2 h), Bool.xor_true]

theorem State.drawn_pixelOn_of_not_covers {u : Nat} (h : ¬SpriteCovers s x y n u) :
    pixelOn (s.drawn x y n).display u = pixelOn s.display u := by
  rw [State.drawn_pixelOn, decide_eq_false (mt (mem_pixelsOf_drawTargets x y n s u).1 h), Bool.xor_false]

theorem State.drawn_flag_of_collision (h : ∃ u, SpriteCovers s x y n u ∧ pixelOn s.display u = true) :
    (s.drawn x y n).getV 0xF = 1 := by
  obtain ⟨u, hcovers, hon⟩ := h
  have hany : (pixelsOf (drawTargets x y n s)).any (pixelOn s.display) = true :=
    List.any_eq_true.2 ⟨u, (mem_pixelsOf_drawTargets x y n s u).2 hcovers, hon⟩
  rw [State.drawn_flag, hany]
  rfl

theorem State.drawn_flag_of_no_collision (h : ∀ u, SpriteCovers s x y n u → pixelOn s.display u = false) :
    (s.drawn x y n).getV 0xF = 0 := by
  have hany : (pixelsOf (drawTargets x y n s)).any (pixelOn s.display) = false :=
    List.any_eq_false.2 fun u hu => by simp [h u ((mem_pixelsOf_drawTargets x y n s u).1 hu)]
  rw [State.drawn_flag, hany]
  rfl

/-! ### The same sprite at the same place after a draw -/

theorem State.spriteBitSet_drawn : SpriteBitSet (s.drawn x y n) = SpriteBitSet s := by
  funext i j
  rw [SpriteBitSet, (s.drawn_frame x y n).2.1]
  rfl

/-- The start is read from V[x] and V[y], which a draw leaves alone unless they are VF. -/
theorem State.spriteLanding_drawn (hx : x ≠ 0xF) (hy : y ≠ 0xF) :
    spriteLanding (s.drawn x y n) x y = spriteLanding s x y := by
  funext i j
  rw [spriteLanding, (s.drawn_frame x y n).1 x hx, (s.drawn_frame x y n).1 y hy]
  rfl

theorem State.spriteCovers_drawn (hx : x ≠ 0xF) (hy : y ≠ 0xF) :
    SpriteCovers (s.drawn x y n) x y n = SpriteCovers s x y n := by
  funext u
  rw [SpriteCovers, State.spriteBitSet_drawn, State.spriteLanding_drawn hx hy]
  rfl

theorem State.drawAllowed_drawn (hx : x ≠ 0xF) (hy : y ≠ 0xF) (h : DrawAllowed s x y n) :
    DrawAllowed (s.drawn x y n) x y n := by
  rw [DrawAllowed, State.spriteBitSet_drawn, State.spriteLanding_drawn hx hy]
  exact h

end

/-- Displays are equal when every pixel is. -/
theorem display_ext {d e : Display} (h : ∀ u, pixelOn d u = pixelOn e u) : d = e :=
  BitVec.eq_of_getLsbD_eq fun u _ => h u

end Sys2Proof.Machine

namespace Sys2Proof.Proofs

open Sys2Proof.Machine

/-- Settles O23: each policy is one case distinction. -/
theorem spriteTargets : Obligations.SpriteTargets := by
  intro xpos ypos i j _ _ hi hj
  refine ⟨spriteTarget_raw_of_past, spriteTarget_raw_of_inside, spriteTarget_clip_of_past,
    spriteTarget_clip_of_inside, rfl, fun edge i' j' t hi' hj' h h' => ⟨spriteTarget_pixel_lt h, ?_⟩⟩
  exact spriteTarget_pixel_inj hi hj hi' hj' h h'

/-- Settles O24: the set bits land on distinct pixels, so each covered pixel is toggled once and is on at its turn
exactly when it was on before the draw. -/
theorem drawTogglesSprite : Obligations.DrawTogglesSprite := fun s x y n hallowed =>
  ⟨s.drawn x y n, exec_drw_of_allowed hallowed,
    fun _ _ => ⟨State.drawn_pixelOn_of_covers, State.drawn_pixelOn_of_not_covers⟩,
    State.drawn_flag_of_collision, State.drawn_flag_of_no_collision, s.drawn_frame x y n⟩

/-- Settles O25: the memory check comes first, and the display check goes through the set bits, rows before
columns. -/
theorem drawFaults : Obligations.DrawFaults := by
  refine fun s x y n => ⟨fun hn hpast => ?memory, fun i j t hmem hi hj hbit hland hfirst => ?display⟩
  case memory => rw [exec_drw_memBounds x y hn hpast]; exact raise_takesFault _ _ s
  case display =>
    rw [exec_drw_displayBounds hmem (firstOut_drawTargets hi hj hbit hland hfirst)]
    exact raise_takesFault _ _ s

/-- Settles O26: with V[x] and V[y] kept, the second draw covers the pixels of the first, so it toggles each back
and finds on exactly those that were off. -/
theorem drawTwiceRestoresDisplay : Obligations.DrawTwiceRestoresDisplay := by
  intro s x y n hx hy hallowed
  have hcovers : SpriteCovers (s.drawn x y n) x y n = SpriteCovers s x y n := State.spriteCovers_drawn hx hy
  refine ⟨s.drawn x y n, (s.drawn x y n).drawn x y n, exec_drw_of_allowed hallowed,
    exec_drw_of_allowed (State.drawAllowed_drawn hx hy hallowed), display_ext fun u => ?restored,
    fun h => ?collision, fun h => ?noCollision⟩
  case restored =>
    by_cases h : SpriteCovers s x y n u
    · rw [State.drawn_pixelOn_of_covers (hcovers ▸ h), State.drawn_pixelOn_of_covers h, Bool.not_not]
    · rw [State.drawn_pixelOn_of_not_covers (hcovers ▸ h), State.drawn_pixelOn_of_not_covers h]
  case collision =>
    obtain ⟨p, hp, hoff⟩ := h
    refine State.drawn_flag_of_collision ⟨p, hcovers ▸ hp, ?_⟩
    rw [State.drawn_pixelOn_of_covers hp, hoff, Bool.not_false]
  case noCollision =>
    refine State.drawn_flag_of_no_collision fun p hp => ?_
    rw [hcovers] at hp
    rw [State.drawn_pixelOn_of_covers hp, h p hp, Bool.not_true]

end Sys2Proof.Proofs
end
